-- ==== Sys2Proof/Word.lean ====
section
/-! DEFINITION. The word and byte types of FFX-FE (spec/00_scope.md rules R8, R11, R12). -/

namespace Sys2Proof

/-- A register, a bus datum or a buffer cell: 32 bits (R8 `WORD`, R11). -/
abbrev Word := BitVec 32

/-- A byte of a byte string (R12). -/
abbrev Byte := BitVec 8

/-- A digit sequence (R13): a finite list of naturals; that each lies in `[0, r)` is stated where it is used. -/
abbrev Digits := List Nat

end Sys2Proof
end

