-- ==== Sys2Proof/Config.lean ====
section
/-! DEFINITION. The implementation parameters of FFX-FE (spec/00_scope.md rule R8) and the fixed numbers of its window. -/

namespace Sys2Proof.Config

/-- `KEY_MAX` (R8): the key buffer holds 64 bytes, the SHA-1 block size. -/
def keyMax : Nat := 64

/-- The number of KEY words (R45). -/
def keyWords : Nat := 16

/-- `PACK_MAX` (R8, R200): the largest value the round function can pack. -/
def packMax : Nat := 2 ^ 31 - 1

/-- The number of values a 20-byte digest can take, `2 ^ (8 * DIGEST_BYTES)` (R8, R204, R205). -/
def digestRange : Nat := 2 ^ 160

/-- The default of the parameter `MAX_LEN` (R8). -/
def maxLenDefault : Nat := 256

/-- The value the ID register reads at all times (R33): "FFX" and version 1. -/
def idValue : Word := 0x46465801

/-- The size of the register window in bytes (R32, R80). -/
def windowBytes : Nat := 4096

/-- FREE VALUE (log entry 3). Which 4096-byte page of the system bus the window occupies: the spec leaves `BASE` to the
platform (R8, R90), so nothing is known of this number. -/
opaque basePage : Nat

/-- `BASE` (R8): the bus address of the register window, a multiple of 4096. -/
def base : Nat := windowBytes * basePage

end Sys2Proof.Config
end

