-- ==== Sys2Proof/Syntax.lean ====
section
/-! DEFINITION. The syntax of FFX-FE: the six commands (spec/30_encoding.md rule R111), the host's bus accesses
(spec/00_scope.md rule R15, spec/20_memory.md rule R82), the steps of the total order (R20, R92) and the host program
notation (R117, R118). -/

namespace Sys2Proof

/-- The six commands of the opcode map (R111). A command carries no operand (R110, R115). -/
inductive Instr where
  /-- no operation (R267) -/
  | nop
  /-- Feistel encrypt (R237) -/
  | enc
  /-- Feistel decrypt (R238) -/
  | dec
  /-- keyed round function (R211) -/
  | rfn
  /-- digit-wise addition (R143) -/
  | dadd
  /-- digit-wise subtraction (R144) -/
  | dsub
deriving DecidableEq, Repr

/-- The width of a bus access (R82). -/
inductive AccessSize where
  | byte | half | word
deriving DecidableEq, Repr

/-- What a bus access does: a read, or a write with its four byte strobes and its data (R15, R81, R82). -/
inductive BusOp where
  | read
  | write (strb : BitVec 4) (data : Word)
deriving DecidableEq, Repr

/-- One host access to a byte offset of the register window (R15). -/
structure Access where
  offset : BitVec 12
  size   : AccessSize
  op     : BusOp
deriving DecidableEq, Repr

/-- One atomic step of the single total order of R20 and R92. -/
inductive Event where
  /-- a host access that reaches the window at a byte offset (R15) -/
  | access (a : Access)
  /-- a bus master's access at a system bus address, which reaches the window only if it lies inside it (R80) -/
  | master (addr : Nat) (size : AccessSize) (op : BusOp)
  /-- the engine's turn: the completion if a command is accepted, nothing otherwise (R264) -/
  | engine
  /-- the hard reset (R330) -/
  | hardReset
deriving DecidableEq, Repr

/-- The registers of the map that have a name of their own (R32). -/
inductive RegName where
  | id | ctrl | status | cmd | radix | rounds | len | ridx | olen | alen | blen | keylen | cph
deriving DecidableEq, Repr

/-- The target of a host program line (R117). -/
inductive Target where
  | reg (r : RegName)
  | key (w : Nat)
  | inp (k : Nat)
  | out (k : Nat)
  | hex (o : BitVec 12)
deriving DecidableEq, Repr

/-- The name a host gives to a datum it has read (R117): `s` of WAIT, `o_k` of RDOUT (R118), or the program's own. -/
inductive ReadName where
  | s
  | o (k : Nat)
  | own (n : Nat)
deriving DecidableEq, Repr

/-- A label of a host program (R117): WAIT's `wt` at line `n` of the source program (R118), or the program's own. -/
inductive Label where
  | wt (n : Nat)
  | own (n : Nat)
deriving DecidableEq, Repr

/-- A `<value>` of a host program line (R117): what W writes and what BNE compares with. -/
inductive Value where
  | lit (v : Word)
  | mnemonic (i : Instr)
  | name (x : ReadName)
deriving DecidableEq, Repr

/-- One line of a host program (R117). The rule does not say what `<mask>` may be: here it is any `<value>`
(DESIGN CHOICE, log entry 23). -/
inductive Line where
  | write (t : Target) (v : Value)
  | read (t : Target) (x : ReadName)
  | label (l : Label)
  | bne (x : ReadName) (mask value : Value) (l : Label)
deriving DecidableEq, Repr

/-- A source line: a plain line or one of the pseudo-instructions of R118. The rule does not say what an element of
LDIN may be: here it is any `<value>`, as in the `W` lines it expands to (DESIGN CHOICE, log entry 23). -/
inductive Pseudo where
  | plain (l : Line)
  | cmd (i : Instr)
  | ldkey (s : List Byte)
  | ldin (k : Nat) (ds : List Value)
  | wait
  | run (i : Instr)
  | ack
  | srst
  | rdout (k m : Nat)
deriving DecidableEq, Repr

end Sys2Proof
end

