-- ==== Sys2Proof/WellFormed.lean ====
section
/-! DEFINITION. What the spec asks of the terms of Syntax.lean: legal commands, command words, parameters and host
program lines. -/

namespace Sys2Proof

/-- A command carries no register number and no immediate (R110, R115), so every one of the six is well formed. -/
def Instr.wellFormed : Instr → Bool
  | .nop => true
  | .enc => true
  | .dec => true
  | .rfn => true
  | .dadd => true
  | .dsub => true

/-- "the six legal command words are exactly 0x00000000 to 0x00000005" (R111). -/
def legalCommandWord (w : Word) : Bool := decide (w.toNat ≤ 5)

/-- `MAX_LEN` is legal in 2..256 (R8). -/
def legalMaxLen (n : Nat) : Bool := decide (2 ≤ n) && decide (n ≤ 256)

/-- A target names a cell that the register map has (R32, R117). -/
def Target.wellFormed : Target → Bool
  | .reg _ => true
  | .key w => decide (w < 16)
  | .inp k => decide (k < 256)
  | .out k => decide (k < 256)
  | .hex _ => true

/-- A line's target is well formed (R117). -/
def Line.wellFormed : Line → Bool
  | .write t _ => t.wellFormed
  | .read t _ => t.wellFormed
  | .label _ => true
  | .bne _ _ _ _ => true

/-- A pseudo-instruction stays inside the buffers it expands to: a key of at most 64 bytes, cells below 256 (R118). -/
def Pseudo.wellFormed : Pseudo → Bool
  | .plain l => l.wellFormed
  | .cmd i => i.wellFormed
  | .ldkey s => decide (s.length ≤ 64)
  | .ldin k ds => decide (k + ds.length ≤ 256)
  | .wait => true
  | .run i => i.wellFormed
  | .ack => true
  | .srst => true
  | .rdout k m => decide (k + m ≤ 256)

end Sys2Proof
end

