-- ==== Sys2Proof/Decode.lean ====
section
/-! DEFINITION. Decoding and encoding of command words (spec/30_encoding.md rules R110 to R116). -/

namespace Sys2Proof

/-- OP, bits 3:0 of a command word (R110). -/
def opField (w : Word) : Nat := w.toNat % 16

/-- RSVD, bits 31:4 of a command word (R110). -/
def rsvdField (w : Word) : Nat := w.toNat / 16

/-- Why a word is no command (R113): a reserved bit is set, or OP is 6 to 15. -/
inductive DecodeReject where
  | rsvdSet
  | opReserved
deriving DecidableEq, Repr

/-- The decoder of R112: total on all 32-bit words. -/
def decode (w : Word) : Except DecodeReject Instr :=
  if rsvdField w ≠ 0 then .error .rsvdSet
  else
    match opField w with
    | 0 => .ok .nop
    | 1 => .ok .enc
    | 2 => .ok .dec
    | 3 => .ok .rfn
    | 4 => .ok .dadd
    | 5 => .ok .dsub
    | _ => .error .opReserved

/-- The OP value of each command in the opcode map (R111). -/
def opcode : Instr → Nat
  | .nop => 0x0
  | .enc => 0x1
  | .dec => 0x2
  | .rfn => 0x3
  | .dadd => 0x4
  | .dsub => 0x5

/-- The encoder: OP in bits 3:0 and RSVD = 0 (R110, R111). -/
def encode (i : Instr) : Word := BitVec.ofNat 32 (opcode i)

/-- The command word that the low `nbits` bits of `w` name; a word of more than 32 bits names none (R116). -/
def tableWord (nbits w : Nat) : Option Word :=
  if w % 2 ^ nbits < 2 ^ 32 then some (BitVec.ofNat 32 (w % 2 ^ nbits)) else none

/-- The instruction the decoder reads from the word `w` of `nbits` bits, the bits above `nbits` being 0
(log entry 20). -/
def decodeTableWord (nbits w : Nat) : Option Instr :=
  match tableWord nbits w with
  | none => none
  | some v =>
    match decode v with
    | .ok i => some i
    | .error _ => none

end Sys2Proof
end

