-- ==== Sys2Proof/Machine/Bytes.lean ====
section
/-! DEFINITION. Byte strings and byte orders (spec/00_scope.md rule R12; the three places where they matter, R87). -/

namespace Sys2Proof.Machine

/-- `LE32(v)` (R12): the four bytes of `v`, least significant first. -/
def le32 (v : Nat) : List Byte :=
  [BitVec.ofNat 8 v, BitVec.ofNat 8 (v / 2 ^ 8), BitVec.ofNat 8 (v / 2 ^ 16), BitVec.ofNat 8 (v / 2 ^ 24)]

/-- `BE32(v)` (R12): the same bytes in the reverse order. -/
def be32 (v : Nat) : List Byte := (le32 v).reverse

/-- `BE64(v)` (R161): the 8-byte big-endian encoding. -/
def be64 (v : Nat) : List Byte := be32 (v / 2 ^ 32) ++ be32 v

/-- `BEnat(x)` (R12): the byte string read as a natural, first byte most significant. -/
def beNat (x : List Byte) : Nat := x.foldl (fun n b => 256 * n + b.toNat) 0

/-- `w[i]` (R11): bit `i` of a word, bit 0 the least significant. -/
def bitOf (w : Word) (i : Nat) : Bool := w.toNat / 2 ^ i % 2 == 1

end Sys2Proof.Machine
end

