-- ==== Sys2Proof/Machine/State.lean ====
section
/-! DEFINITION. The state of FFX-FE (spec/10_state.md rule R58), its reset value (spec/70_reset_and_hazards.md rule R330)
and the reasons a step can stop. -/

namespace Sys2Proof.Machine

/-- PHASE (R54): BUSY exactly while a command is accepted and not completed. -/
inductive Phase where
  | idle | busy
deriving DecidableEq, Repr

/-- The completion codes of R290. Codes 8 to 15 are never produced, so they have no constructor. -/
inductive ErrCode where
  | ok | opcode | keylen | radix | rounds | length | digit | encoding
deriving DecidableEq, Repr

/-- The response of a bus access (R15). -/
inductive BusResp where
  | okay | slverr
deriving DecidableEq, Repr

/-- What a bus access answers its master: `BusRead(a) -> (resp, data)`, `BusWrite(a, v) -> resp` (R15). -/
inductive BusAnswer where
  | read (resp : BusResp) (data : Word)
  | write (resp : BusResp)
deriving DecidableEq, Repr

/-- The cells of a buffer (IN, OUT) by index: strictly rising indexes, and no entry equal to 0, which is what an
unlisted cell reads as (its reset value, R51, R52). The cell is FFX-FE's smallest addressable unit (R82, R88)
(DEDUCED, log entry 6). -/
abbrev Memory := List (Nat × Word)

/-- The state `S` a command's result is a function of (R263): the operand registers (R41 to R44, R46 to R49), KEY (R45)
and IN (R51). -/
structure Operands where
  radix  : Word
  rounds : Word
  len    : Word
  ridx   : Word
  olen   : Word
  alen   : Word
  blen   : Word
  keylen : Word
  key    : Vector Word 16
  inBuf  : Memory
deriving DecidableEq, Repr

/-- The state of FFX-FE (R58). ID is a constant, STATUS.BUSY is PHASE, CPH is a function of RADIX, and CMD and CTRL.SRST
hold nothing, so none of these is stored. `maxLen`, `pending` and `resp` are the model's: the parameter MAX_LEN (R8), the
rest of the total order of steps (R92) and the answer to the latest access (R15). -/
structure State where
  /-- the parameter MAX_LEN (R8); no step changes it (DESIGN CHOICE, log entry 4) -/
  maxLen  : Nat
  /-- RADIX, ROUNDS, LEN, RIDX, OLEN, ALEN, BLEN, KEYLEN, KEY and IN (R263's `S`) -/
  ops     : Operands
  /-- CTRL.IE (R34) -/
  ie      : Bool
  /-- STATUS.DONE (R36) -/
  done    : Bool
  /-- STATUS.ERR (R37) -/
  err     : Bool
  /-- STATUS.OVR (R38) -/
  ovr     : Bool
  /-- STATUS.ERRCODE (R39) -/
  errcode : ErrCode
  /-- OUT (R52) -/
  outBuf  : Memory
  /-- PHASE (R54), read as STATUS.BUSY (R35) -/
  phase   : Phase
  /-- CUR (R55) -/
  cur     : Word
  /-- the steps still to come, in the order of R92 (DESIGN CHOICE, log entry 1) -/
  pending : List Event
  /-- the answer to the latest bus access (R15) (DESIGN CHOICE, log entries 13 and 15) -/
  resp    : Option BusAnswer
deriving DecidableEq, Repr

/-- The operand registers, KEY and IN after reset (R330). -/
def Operands.reset : Operands :=
  { radix := 10, rounds := 10, len := 0, ridx := 0, olen := 0, alen := 0, blen := 0, keylen := 0,
    key := Vector.replicate 16 0, inBuf := [] }

/-- The state after reset (R330) of an FFX-FE with `maxLen` cells in each buffer. -/
def State.resetWith (maxLen : Nat) : State :=
  { maxLen := maxLen, ops := Operands.reset, ie := false, done := false, err := false, ovr := false, errcode := .ok,
    outBuf := [], phase := .idle, cur := 0, pending := [], resp := none }

/-- The machine right after reset (R330), with the default MAX_LEN = 256 (R8). -/
def State.reset : State := State.resetWith Config.maxLenDefault

/-- The reasons a step could stop with a fault: none. An access FFX-FE does not serve gets the response SLVERR and the
machine goes on (R82, R295), and a failed command completes with a code (R299), so no step stops (DEDUCED, log entry 12). -/
inductive Fault
deriving DecidableEq, Repr

/-- The reasons a step could be refused. -/
inductive Refusal where
  /-- Raised by `exec` for an instruction without a meaning, and by nothing else. Safe. No arm of `exec` raises it now. -/
  | notModelled (mnemonic : String)
deriving DecidableEq, Repr

end Sys2Proof.Machine
end

