-- ==== Sys2Proof/Machine/Ops.lean ====
section
/-! DEFINITION. The named operations over buffers and state: cells, acceptance, completion with and without an error
(FFX-FE's exception entry), and the operations that clear what a completion set (its return). -/

namespace Sys2Proof.Machine

/-- The content of cell `k`; an unlisted cell reads as 0 (R51, R52, R330). -/
def Memory.read : Memory → Nat → Word
  | [], _ => 0#32
  | (a, x) :: rest, k => if a = k then x else Memory.read rest k

/-- Replace the content of cell `k`, keeping the canonical form. -/
def Memory.write : Memory → Nat → Word → Memory
  | [], k, v => if v = 0#32 then [] else [(k, v)]
  | (a, x) :: rest, k, v =>
    if k < a then (if v = 0#32 then (a, x) :: rest else (k, v) :: (a, x) :: rest)
    else if k = a then (if v = 0#32 then rest else (k, v) :: rest)
    else (a, x) :: Memory.write rest k v

/-- Write the digits `ds` to the cells `k, k+1, …` in order (the last line of each command's pseudocode). -/
def Memory.writeDigits : Memory → Nat → Digits → Memory
  | m, _, [] => m
  | m, k, d :: ds => Memory.writeDigits (m.write k (BitVec.ofNat 32 d)) (k + 1) ds

/-- The canonical form of a buffer of `bound` cells: rising indexes below `bound`, no listed cell 0. -/
abbrev Memory.wf (bound : Nat) (m : Memory) : Prop :=
  m.Pairwise (fun x y => x.1 < y.1) ∧ ∀ c ∈ m, c.1 < bound ∧ c.2 ≠ 0#32

/-- `Execute`'s result (R263): the digits the command writes to `OUT[0], OUT[1], …`, or the code it raises (R16). -/
abbrev Result := Except ErrCode Digits

/-- The number of each code (R290), reported in STATUS.ERRCODE. -/
def ErrCode.number : ErrCode → Nat
  | .ok => 0
  | .opcode => 1
  | .keylen => 2
  | .radix => 3
  | .rounds => 4
  | .length => 5
  | .digit => 6
  | .encoding => 7

/-- Acceptance (R261): what a CMD write while IDLE does to the engine. -/
def State.accept (s : State) (w : Word) : State :=
  { s with cur := w, phase := .busy, done := false, err := false, errcode := .ok }

/-- Completion with a code other than OK (R264, R294, R299), FFX-FE's exception entry: STATUS only, no OUT cell. -/
def State.completeError (s : State) (c : ErrCode) : State :=
  { s with phase := .idle, done := true, err := decide (c ≠ .ok), errcode := c }

/-- Completion with OK (R264): the OUT cells of the result, and STATUS. -/
def State.completeOk (s : State) (u : Digits) : State :=
  { s with outBuf := s.outBuf.writeDigits 0 u, phase := .idle, done := true, err := false, errcode := .ok }

/-- Completion (R264), one atomic step. -/
def State.complete (s : State) : Result → State
  | .ok u => s.completeOk u
  | .error c => s.completeError c

/-- The acknowledge, FFX-FE's return from an error (R269, R300): a STATUS write clears the flags written 1. -/
def State.acknowledge (s : State) (v : Word) : State :=
  { s with done := s.done && !bitOf v 1, err := s.err && !bitOf v 2, ovr := s.ovr && !bitOf v 3 }

/-- A write the engine ignores because it is BUSY (R262, R265). -/
def State.overrun (s : State) : State := { s with ovr := true }

/-- Reset, hard or soft (R330, R331): every piece of R58's state at its reset value. MAX_LEN is a parameter and the
steps still to come are the outside world's, so these two stay (DESIGN CHOICE, log entry 15). -/
def State.resetDevice (s : State) : State := { State.resetWith s.maxLen with pending := s.pending }

/-- Record what the latest access answered (R15). -/
def State.answer (s : State) (r : BusAnswer) : State := { s with resp := some r }

/-- The interrupt output (R297): `irq = CTRL.IE AND STATUS.DONE`. -/
def State.irq (s : State) : Bool := s.ie && s.done

/-- The command the engine runs: CUR through the decoder (R55, R112, R263). -/
def State.command (s : State) : Except DecodeReject Instr := decode s.cur

end Sys2Proof.Machine
end

