-- ==== Sys2Proof/Machine/Flags.lean ====
section
/-! DEFINITION. The words STATUS and CTRL read as (spec/10_state.md rules R34 to R39). -/

namespace Sys2Proof.Machine

/-- One flag as a bit of a word. -/
def flagBit (b : Bool) (i : Nat) : Nat := if b then 2 ^ i else 0

/-- STATUS.BUSY equals `PHASE = BUSY` (R35). -/
def State.busy (s : State) : Bool := decide (s.phase = .busy)

/-- A read of STATUS (R39): `BUSY | DONE<<1 | ERR<<2 | OVR<<3 | ERRCODE<<8`. -/
def State.statusWord (s : State) : Word :=
  BitVec.ofNat 32
    (flagBit s.busy 0 + flagBit s.done 1 + flagBit s.err 2 + flagBit s.ovr 3 + s.errcode.number * 2 ^ 8)

/-- A read of CTRL (R34): `zext_32(IE)`; SRST and the reserved bits read 0. -/
def State.ctrlWord (s : State) : Word := BitVec.ofNat 32 (flagBit s.ie 0)

end Sys2Proof.Machine
end

