-- ==== Sys2Proof/Machine/Control.lean ====
section
/-! DEFINITION. NOP and the control writes (spec/44_control.md rules R261, R262, R267 to R270). -/

namespace Sys2Proof.Machine

/-- `Execute` for NOP (R267): `(OK, [])`. -/
def nopResult : Result := .ok []

/-- NOP: the completion of R264 with the result of R267. -/
def execNop (s : State) : Host.Outcome State Fault Refusal := .next (s.complete nopResult)

/-- A write to CMD: acceptance while IDLE (R261), ignored while BUSY (R262). -/
def State.writeCmd (s : State) (w : Word) : State :=
  match s.phase with
  | .idle => s.accept w
  | .busy => s.overrun

/-- A write to CTRL, in either phase: soft reset when bit 1 is 1 (R268), else IE takes bit 0 (R270). -/
def State.writeCtrl (s : State) (v : Word) : State :=
  if bitOf v 1 then s.resetDevice else { s with ie := bitOf v 0 }

/-- A write to an operand register, KEY or IN: it stores while IDLE (R260) and is lost while BUSY (R265). -/
def State.writeOps (s : State) (o : Operands) : State :=
  match s.phase with
  | .idle => { s with ops := o }
  | .busy => s.overrun

end Sys2Proof.Machine
end

