-- ==== Sys2Proof/Machine/Sha1.lean ====
section
/-! DEFINITION. SHA-1 (spec/41_hmac_sha1.md rules R160 to R167). -/

namespace Sys2Proof.Machine

/-- `ROTL_n` (R160), for `0 < n < 32`. -/
def rotl (n : Nat) (x : Word) : Word := (x <<< n) ||| (x >>> (32 - n))

/-- The hash value `(H0, …, H4)` and the working variables `(a, …, e)` (R163, R165). -/
structure HashWords where
  a : Word
  b : Word
  c : Word
  d : Word
  e : Word
deriving DecidableEq, Repr

/-- The initial hash value (R163). -/
def sha1Init : HashWords :=
  { a := 0x67452301, b := 0xEFCDAB89, c := 0x98BADCFE, d := 0x10325476, e := 0xC3D2E1F0 }

/-- The padded message (R161); `(119 - L mod 64) mod 64` is `(55 - L) mod 64`. -/
def sha1Pad (m : List Byte) : List Byte :=
  m ++ [0x80#8] ++ List.replicate ((119 - m.length % 64) % 64) 0#8 ++ be64 (8 * m.length)

/-- The first `n` 64-byte blocks of a padded message (R162). -/
def sha1Blocks : Nat → List Byte → List (List Byte)
  | 0, _ => []
  | n + 1, m => m.take 64 :: sha1Blocks n (m.drop 64)

/-- The first `n` big-endian words of a block (R162). -/
def sha1Words : Nat → List Byte → List Word
  | 0, _ => []
  | n + 1, m => BitVec.ofNat 32 (beNat (m.take 4)) :: sha1Words n (m.drop 4)

/-- `n` more words `W_t` in front of `W_{t-1}, W_{t-2}, …` (R165's first loop), the newest first. -/
def sha1Extend : Nat → List Word → List Word
  | 0, ws => ws
  | n + 1, ws => sha1Extend n (rotl 1 (ws.getD 2 0 ^^^ ws.getD 7 0 ^^^ ws.getD 13 0 ^^^ ws.getD 15 0) :: ws)

/-- The message schedule `W_0 … W_79` of a block (R162, R165). -/
def sha1Schedule (block : List Byte) : List Word := (sha1Extend 64 (sha1Words 16 block).reverse).reverse

/-- `f_t(b, c, d)` (R164). -/
def sha1F (t : Nat) (b c d : Word) : Word :=
  if t < 20 then (b &&& c) ||| (~~~b &&& d)
  else if t < 40 then b ^^^ c ^^^ d
  else if t < 60 then (b &&& c) ||| (b &&& d) ||| (c &&& d)
  else b ^^^ c ^^^ d

/-- `K_t` (R164). -/
def sha1K (t : Nat) : Word :=
  if t < 20 then 0x5A827999
  else if t < 40 then 0x6ED9EBA1
  else if t < 60 then 0x8F1BBCDC
  else 0xCA62C1D6

/-- Step `t` of the compression with the schedule word `w` (R165). -/
def sha1Step (t : Nat) (w : Word) (h : HashWords) : HashWords :=
  { a := rotl 5 h.a + sha1F t h.b h.c h.d + h.e + sha1K t + w, b := h.a, c := rotl 30 h.b, d := h.c, e := h.d }

/-- The steps from `t` on, one for each schedule word (R165). -/
def sha1Steps : Nat → List Word → HashWords → HashWords
  | _, [], h => h
  | t, w :: ws, h => sha1Steps (t + 1) ws (sha1Step t w h)

/-- The compression of one block into the hash value (R165). -/
def sha1Compress (h : HashWords) (block : List Byte) : HashWords :=
  let g := sha1Steps 0 (sha1Schedule block) h
  { a := h.a + g.a, b := h.b + g.b, c := h.c + g.c, d := h.d + g.d, e := h.e + g.e }

/-- The digest of a hash value: `BE32(H0) || … || BE32(H4)` (R166). -/
def HashWords.bytes (h : HashWords) : List Byte :=
  be32 h.a.toNat ++ be32 h.b.toNat ++ be32 h.c.toNat ++ be32 h.d.toNat ++ be32 h.e.toNat

/-- `SHA1(m)` (R166). -/
def sha1 (m : List Byte) : List Byte :=
  let p := sha1Pad m
  ((sha1Blocks (p.length / 64) p).foldl sha1Compress sha1Init).bytes

end Sys2Proof.Machine
end

