-- ==== Sys2Proof/Machine/Hmac.lean ====
section
/-! DEFINITION. HMAC-SHA-1 (spec/41_hmac_sha1.md rules R170 to R173). -/

namespace Sys2Proof.Machine

/-- `K0` (R171): the key with zero bytes up to 64. -/
def hmacKey (key : List Byte) : List Byte := key ++ List.replicate (Config.keyMax - key.length) 0#8

/-- `HMAC_SHA1(K, m)` for a key of at most 64 bytes (R171, R172) (log entry 16). -/
def hmacSha1 (key m : List Byte) : List Byte :=
  let ipad := (hmacKey key).map (· ^^^ 0x36#8)
  let opad := (hmacKey key).map (· ^^^ 0x5C#8)
  sha1 (opad ++ sha1 (ipad ++ m))

end Sys2Proof.Machine
end

