-- ==== Sys2Proof/Machine/Operands.lean ====
section
/-! DEFINITION. The operand forms of the commands (spec/30_encoding.md rule R114) and the checks on them
(spec/60_exceptions.md rule R292). -/

namespace Sys2Proof.Machine

/-- The 64 bytes `KEYB[0..63]` (R45, R86): little-endian within each KEY word. -/
def Operands.keyStore (o : Operands) : List Byte := o.key.toList.flatMap (fun w => le32 w.toNat)

/-- The HMAC key `K = KEYB[0..KEYLEN-1]` (R170). -/
def Operands.keyBytes (o : Operands) : List Byte := o.keyStore.take o.keylen.toNat

/-- `IN[a..a+n-1]` as a digit sequence (R13), read at completion, when it stands as at acceptance (DEDUCED, log entry 7). -/
def Operands.cells (o : Operands) (a n : Nat) : Digits :=
  (List.range n).map (fun k => (o.inBuf.read (a + k)).toNat)

/-- R292 check 6: some cell `IN[k]`, `k < n`, holds a value `>= RADIX`. -/
def Operands.badDigit (o : Operands) (n : Nat) : Bool :=
  (o.cells 0 n).any (fun d => decide (o.radix.toNat ≤ d))

/-- R292 checks 2 to 6 for ENC and DEC, then `body` (R237, R238). Inlined, so that a run
computes `body` only past the checks. -/
@[inline]
def Operands.checkedFeistel (maxLen : Nat) (o : Operands) (body : Result) : Result :=
  if Config.keyMax < o.keylen.toNat then .error .keylen
  else if o.radix.toNat < 2 then .error .radix
  else if o.rounds.toNat = 0 then .error .rounds
  else if o.len.toNat < 2 ∨ maxLen < o.len.toNat then .error .length
  else if o.badDigit o.len.toNat then .error .digit
  else body

/-- R292 checks 2, 3, 5 and 6 for RFN, then `body` (R211). Inlined likewise. -/
@[inline]
def Operands.checkedRound (maxLen : Nat) (o : Operands) (body : Result) : Result :=
  if Config.keyMax < o.keylen.toNat then .error .keylen
  else if o.radix.toNat < 2 then .error .radix
  else if maxLen < o.len.toNat ∨ maxLen < o.olen.toNat then .error .length
  else if o.badDigit o.len.toNat then .error .digit
  else body

/-- R292 checks 3, 5 and 6 for DADD and DSUB, the sum taken on naturals, then `body` (R143, R144). Inlined
likewise. -/
@[inline]
def Operands.checkedArith (maxLen : Nat) (o : Operands) (body : Result) : Result :=
  if o.radix.toNat < 2 then .error .radix
  else if maxLen < o.alen.toNat + o.blen.toNat then .error .length
  else if o.badDigit (o.alen.toNat + o.blen.toNat) then .error .digit
  else body

end Sys2Proof.Machine
end

