-- ==== Sys2Proof/Machine/Round.lean ====
section
/-! DEFINITION. The keyed round function and RFN (spec/42_round_function.md rules R200 to R211). -/

namespace Sys2Proof.Machine

/-- `Pack(v)` (R200): little-endian, and ERR_ENCODING above `2^31 - 1`. -/
def pack (v : Nat) : Except ErrCode (List Byte) := if Config.packMax < v then .error .encoding else .ok (le32 v)

/-- `Pack(v_0) || Pack(v_1) || …`, in this order; the first failure ends it (R201). -/
def packAll : List Nat → Except ErrCode (List Byte)
  | [] => .ok []
  | v :: vs =>
    match pack v with
    | .error e => .error e
    | .ok b =>
      match packAll vs with
      | .error e => .error e
      | .ok bs => .ok (b ++ bs)

/-- The largest `k` reached from `k` with `p = r^k` by at most `fuel` multiplications that stay within `2^160`. -/
def cphFrom : Nat → Nat → Nat → Nat → Nat
  | 0, _, k, _ => k
  | fuel + 1, r, k, p => if p * r ≤ Config.digestRange then cphFrom fuel r (k + 1) (p * r) else k

/-- `CPH(r)` (R205), for `r >= 2`: the largest `k` with `r^k <= 2^160`, in integers. It is at most 160, so 160
multiplications reach it (log entry 17). -/
def cph (r : Nat) : Nat := cphFrom 160 r 0 1

/-- The first `n` digits of one digest number, least significant first (R206). -/
def extractDigits : Nat → Nat → Nat → Digits
  | 0, _, _ => []
  | n + 1, r, d => d % r :: extractDigits n r (d / r)

/-- The loop of R210 with `need` digits still to make, the next message being `pre || LE32(j)` (R202, R203). Each turn
makes at least one digit when `r >= 2` and `CPH(r) >= 1`, so a `fuel` of `need` turns is enough (log entry 17). -/
def roundDigits : Nat → List Byte → Nat → List Byte → Nat → Nat → Digits
  | 0, _, _, _, _, _ => []
  | fuel + 1, key, r, pre, j, need =>
    if need = 0 then []
    else
      let g := hmacSha1 key (pre ++ le32 j)
      let n := min (cph r) need
      extractDigits n r (beNat g) ++ roundDigits fuel key r g (j + 1) (need - n)

/-- `RoundFn(K, r, i, s, L)` (R210): pack first (R209), then the digests' digits. -/
def roundFn (key : List Byte) (r i : Nat) (s : Digits) (l : Nat) : Result :=
  match packAll (i :: s) with
  | .error e => .error e
  | .ok p => .ok (roundDigits l key r p 0 l)

/-- `Execute` for RFN (R211). -/
def rfnResult (maxLen : Nat) (o : Operands) : Result :=
  o.checkedRound maxLen
    (roundFn o.keyBytes o.radix.toNat o.ridx.toNat (o.cells 0 o.len.toNat) o.olen.toNat)

/-- RFN: the completion of R264 with the result of R211. -/
def execRfn (s : State) : Host.Outcome State Fault Refusal := .next (s.complete (rfnResult s.maxLen s.ops))

end Sys2Proof.Machine
end

