-- ==== Sys2Proof/Machine/Bus.lean ====
section
/-! DEFINITION. The register window: the map (spec/10_state.md rule R32), reads and writes of every location, and the bus
access (spec/20_memory.md rules R80 to R89). -/

namespace Sys2Proof.Machine

/-- The operand registers of R41 to R44 and R46 to R49. -/
inductive OperandReg where
  | radix | rounds | len | ridx | olen | alen | blen | keylen
deriving DecidableEq, Repr

/-- What stands at an offset of the window (R32). -/
inductive Location where
  | id | ctrl | status | cmd | cph
  | operand (r : OperandReg)
  | key (w : Nat)
  | inp (k : Nat)
  | out (k : Nat)
  | reserved
deriving DecidableEq, Repr

/-- The offset of the operand registers (R32). -/
def operandOffset : OperandReg → Nat
  | .radix => 0x010
  | .rounds => 0x014
  | .len => 0x018
  | .ridx => 0x01C
  | .olen => 0x020
  | .alen => 0x024
  | .blen => 0x028
  | .keylen => 0x02C

/-- The register map below 0x400 (R32), for an offset that is a multiple of 4. -/
def locateLow (a : Nat) : Location :=
  if a = 0x000 then .id
  else if a = 0x004 then .ctrl
  else if a = 0x008 then .status
  else if a = 0x00C then .cmd
  else if a = 0x010 then .operand .radix
  else if a = 0x014 then .operand .rounds
  else if a = 0x018 then .operand .len
  else if a = 0x01C then .operand .ridx
  else if a = 0x020 then .operand .olen
  else if a = 0x024 then .operand .alen
  else if a = 0x028 then .operand .blen
  else if a = 0x02C then .operand .keylen
  else if a = 0x030 then .cph
  else if 0x040 ≤ a ∧ a < 0x080 then .key ((a - 0x040) / 4)
  else .reserved

/-- The register map (R9, R32, R83): cells at or beyond MAX_LEN are reserved. -/
def locate (maxLen a : Nat) : Location :=
  if a < 0x400 then locateLow a
  else if a < 0x800 then (if (a - 0x400) / 4 < maxLen then .inp ((a - 0x400) / 4) else .reserved)
  else if a < 0xC00 then (if (a - 0x800) / 4 < maxLen then .out ((a - 0x800) / 4) else .reserved)
  else .reserved

/-- The content of an operand register. -/
def Operands.get (o : Operands) : OperandReg → Word
  | .radix => o.radix
  | .rounds => o.rounds
  | .len => o.len
  | .ridx => o.ridx
  | .olen => o.olen
  | .alen => o.alen
  | .blen => o.blen
  | .keylen => o.keylen

/-- An operand register takes every 32-bit value (R57). -/
def Operands.set (o : Operands) (r : OperandReg) (v : Word) : Operands :=
  match r with
  | .radix => { o with radix := v }
  | .rounds => { o with rounds := v }
  | .len => { o with len := v }
  | .ridx => { o with ridx := v }
  | .olen => { o with olen := v }
  | .alen => { o with alen := v }
  | .blen => { o with blen := v }
  | .keylen => { o with keylen := v }

/-- KEY[w] takes a word (R45). -/
def Operands.setKey (o : Operands) (w : Nat) (v : Word) : Operands := { o with key := o.key.setIfInBounds w v }

/-- IN[k] takes a word (R51). -/
def Operands.setCell (o : Operands) (k : Nat) (v : Word) : Operands := { o with inBuf := o.inBuf.write k v }

/-- A read of CPH (R50): `CPH(RADIX)`, and 0 when `RADIX < 2`. -/
def cphWord (radix : Word) : Word := if radix.toNat < 2 then 0 else BitVec.ofNat 32 (cph radix.toNat)

/-- What a location reads as, in any phase (R33 to R52, R83, R84, R266). -/
def State.readLocation (s : State) : Location → Word
  | .id => Config.idValue
  | .ctrl => s.ctrlWord
  | .status => s.statusWord
  | .cmd => 0
  | .cph => cphWord s.ops.radix
  | .operand r => s.ops.get r
  | .key _ => 0
  | .inp k => s.ops.inBuf.read k
  | .out k => s.outBuf.read k
  | .reserved => 0

/-- What a write to a location does (R83, R85, R260 to R270). -/
def State.writeLocation (s : State) (l : Location) (v : Word) : State :=
  match l with
  | .id => s
  | .ctrl => s.writeCtrl v
  | .status => s.acknowledge v
  | .cmd => s.writeCmd v
  | .cph => s
  | .operand r => s.writeOps (s.ops.set r v)
  | .key w => s.writeOps (s.ops.setKey w v)
  | .inp k => s.writeOps (s.ops.setCell k v)
  | .out _ => s
  | .reserved => s

/-- All four byte strobes are set (R82); a read has none to set. -/
def fullStrobes : BusOp → Bool
  | .read => true
  | .write strb _ => decide (strb = 0b1111#4)

/-- The only access FFX-FE serves (R82): 32 bits wide, at a multiple of 4, a write with all four strobes. -/
def served (a : Access) : Bool :=
  decide (a.size = .word) && decide (a.offset.toNat % 4 = 0) && fullStrobes a.op

/-- The location an access names. -/
def State.locateAccess (s : State) (a : Access) : Location := locate s.maxLen a.offset.toNat

/-- A served read: the data of the location with OKAY, and no other effect (R84). -/
def State.serveRead (s : State) (l : Location) : State := s.answer (.read .okay (s.readLocation l))

/-- A served write: its effect, with OKAY. -/
def State.serveWrite (s : State) (l : Location) (v : Word) : State := (s.writeLocation l v).answer (.write .okay)

/-- An access FFX-FE does not serve (R82): SLVERR, data 0 on a read, and no change of state. -/
def State.serveError (s : State) : BusOp → State
  | .read => s.answer (.read .slverr 0)
  | .write _ _ => s.answer (.write .slverr)

/-- One host access to the window (R15, R82 to R89). -/
def State.serve (s : State) (a : Access) : State :=
  if served a then
    match a.op with
    | .read => s.serveRead (s.locateAccess a)
    | .write _ v => s.serveWrite (s.locateAccess a) v
  else s.serveError a.op

/-- `BusRead(a)` (R15): a whole-word read. -/
def busRead (a : BitVec 12) : Access := { offset := a, size := .word, op := .read }

/-- `BusWrite(a, v)` (R15): a whole-word write. -/
def busWrite (a : BitVec 12) (v : Word) : Access := { offset := a, size := .word, op := .write 0b1111#4 v }

/-- The window offset of a system bus address, if it lies in `BASE .. BASE + 0xFFF` (R80). -/
def windowOffset (addr : Nat) : Option (BitVec 12) :=
  if Config.base ≤ addr ∧ addr < Config.base + Config.windowBytes then some (BitVec.ofNat 12 (addr - Config.base))
  else none

/-- A master's access at a system bus address: it reaches FFX-FE only inside the window (R80, R91)
(DESIGN CHOICE, log entry 14). -/
def State.serveMaster (s : State) (addr : Nat) (size : AccessSize) (op : BusOp) : State :=
  match windowOffset addr with
  | some offset => s.serve { offset := offset, size := size, op := op }
  | none => s

end Sys2Proof.Machine
end

