-- ==== Sys2Proof/Machine/Digit.lean ====
section
/-! DEFINITION. Digit-sequence arithmetic: DADD and DSUB (spec/40_digit_arithmetic.md rules R140 to R146). -/

namespace Sys2Proof.Machine

/-- `DigitAdd(r, a, b)` (R140): elementwise modulo `r`, cut to the shorter operand (R142). -/
def digitAdd (r : Nat) (a b : Digits) : Digits := List.zipWith (fun (x y : Nat) => (x + y) % r) a b

/-- `DigitSub(r, a, b)` (R141): the difference taken on integers, the remainder in `[0, r)`. -/
def digitSub (r : Nat) (a b : Digits) : Digits :=
  List.zipWith (fun (x y : Nat) => (((x : Int) - (y : Int)) % (r : Int)).toNat) a b

/-- `Execute` for DADD (R143). -/
def daddResult (maxLen : Nat) (o : Operands) : Result :=
  o.checkedArith maxLen
    (.ok (digitAdd o.radix.toNat (o.cells 0 o.alen.toNat) (o.cells o.alen.toNat o.blen.toNat)))

/-- `Execute` for DSUB (R144). -/
def dsubResult (maxLen : Nat) (o : Operands) : Result :=
  o.checkedArith maxLen
    (.ok (digitSub o.radix.toNat (o.cells 0 o.alen.toNat) (o.cells o.alen.toNat o.blen.toNat)))

/-- DADD: the completion of R264 with the result of R143. -/
def execDadd (s : State) : Host.Outcome State Fault Refusal := .next (s.complete (daddResult s.maxLen s.ops))

/-- DSUB: the completion of R264 with the result of R144. -/
def execDsub (s : State) : Host.Outcome State Fault Refusal := .next (s.complete (dsubResult s.maxLen s.ops))

end Sys2Proof.Machine
end

