-- ==== Sys2Proof/Machine/Feistel.lean ====
section
/-! DEFINITION. The Feistel cipher engine: ENC and DEC (spec/43_feistel.md rules R230 to R239). -/

namespace Sys2Proof.Machine

/-- The two halves of a sequence during the rounds (R230). -/
abbrev Halves := Digits × Digits

/-- Split before element `h` (R230, R233). -/
def splitAt (h : Nat) (v : Digits) : Halves := (v.take h, v.drop h)

/-- Round `i` of `Encrypt` on `(A, B)` (R231): `(A, B) <- (B, DigitAdd(r, A, RoundFn(K, r, i, B, len A)))`. -/
def encRound (key : List Byte) (r i : Nat) (h : Halves) : Except ErrCode Halves :=
  match roundFn key r i h.2 h.1.length with
  | .error e => .error e
  | .ok f => .ok (h.2, digitAdd r h.1 f)

/-- Round `i` of `Decrypt` on `(B, C)` (R234): `(B, C) <- (DigitSub(r, C, RoundFn(K, r, i, B, len C)), B)`. -/
def decRound (key : List Byte) (r i : Nat) (h : Halves) : Except ErrCode Halves :=
  match roundFn key r i h.1 h.2.length with
  | .error e => .error e
  | .ok f => .ok (digitSub r h.2 f, h.1)

/-- Rounds `0 .. n-1` in ascending order (R231). -/
def encRounds (key : List Byte) (r : Nat) : Nat → Halves → Except ErrCode Halves
  | 0, h => .ok h
  | n + 1, h =>
    match encRounds key r n h with
    | .error e => .error e
    | .ok g => encRound key r n g

/-- Rounds `n-1 .. 0` in descending order (R234). -/
def decRounds (key : List Byte) (r : Nat) : Nat → Halves → Except ErrCode Halves
  | 0, h => .ok h
  | n + 1, h =>
    match decRound key r n h with
    | .error e => .error e
    | .ok g => decRounds key r n g

/-- The concatenation of the halves an operation ends with (R231, R234). -/
def joinHalves : Except ErrCode Halves → Result
  | .error e => .error e
  | .ok h => .ok (h.1 ++ h.2)

/-- `Encrypt(K, r, R, v)` (R231). -/
def encrypt (key : List Byte) (r rounds : Nat) (v : Digits) : Result :=
  joinHalves (encRounds key r rounds (splitAt (v.length / 2) v))

/-- `f` of R233: the length of the first part of `Encrypt`'s result for a sequence of length `n`. -/
def decSplit (rounds n : Nat) : Nat := if rounds % 2 = 0 then n / 2 else n - n / 2

/-- `Decrypt(K, r, R, w)` (R234). -/
def decrypt (key : List Byte) (r rounds : Nat) (w : Digits) : Result :=
  joinHalves (decRounds key r rounds (splitAt (decSplit rounds w.length) w))

/-- `Execute` for ENC (R237). -/
def encResult (maxLen : Nat) (o : Operands) : Result :=
  o.checkedFeistel maxLen (encrypt o.keyBytes o.radix.toNat o.rounds.toNat (o.cells 0 o.len.toNat))

/-- `Execute` for DEC (R238). -/
def decResult (maxLen : Nat) (o : Operands) : Result :=
  o.checkedFeistel maxLen (decrypt o.keyBytes o.radix.toNat o.rounds.toNat (o.cells 0 o.len.toNat))

/-- ENC: the completion of R264 with the result of R237. -/
def execEnc (s : State) : Host.Outcome State Fault Refusal := .next (s.complete (encResult s.maxLen s.ops))

/-- DEC: the completion of R264 with the result of R238. -/
def execDec (s : State) : Host.Outcome State Fault Refusal := .next (s.complete (decResult s.maxLen s.ops))

end Sys2Proof.Machine
end

