-- ==== Sys2Proof/Machine/Dispatch.lean ====
section
/-! DEFINITION. The meaning of each command (spec/44_control.md rule R263), one arm per constructor of Instr. -/

namespace Sys2Proof.Machine

/-- The completion of the command `i` (R263, R264). -/
def exec (i : Instr) (s : State) : Host.Outcome State Fault Refusal :=
  match i with
  | .nop => Sys2Proof.Machine.execNop s
  | .enc => Sys2Proof.Machine.execEnc s
  | .dec => Sys2Proof.Machine.execDec s
  | .rfn => Sys2Proof.Machine.execRfn s
  | .dadd => Sys2Proof.Machine.execDadd s
  | .dsub => Sys2Proof.Machine.execDsub s

end Sys2Proof.Machine
end

