-- ==== Sys2Proof/Machine/Engine.lean ====
section
/-! DEFINITION. The engine's step (spec/44_control.md rules R263, R264). -/

namespace Sys2Proof.Machine

/-- The completion of the accepted command: `Execute(CUR, S)` (R263), ERR_OPCODE for a reserved word (R113). -/
def completion (s : State) : Host.Outcome State Fault Refusal :=
  match s.command with
  | .ok i => exec i s
  | .error _ => .next (s.completeError .opcode)

/-- The engine step, enabled exactly when PHASE = BUSY (R264); while IDLE the engine's turn changes nothing (R260)
(DEDUCED, log entry 18). -/
def engineStep (s : State) : Host.Outcome State Fault Refusal :=
  match s.phase with
  | .idle => .next s
  | .busy => completion s

/-- One step of the total order of R92, on the state from which it has been taken. -/
def eventStep (e : Event) (s : State) : Host.Outcome State Fault Refusal :=
  match e with
  | .access a => .next (s.serve a)
  | .master addr size op => .next (s.serveMaster addr size op)
  | .engine => engineStep s
  | .hardReset => .next s.resetDevice

/-- The steps still to come, less the first. -/
def State.popEvent (s : State) : State := { s with pending := s.pending.tail }

/-- A command word placed where the engine takes its next command from: as an acceptance leaves it (R261), with the
engine's turn next. -/
def State.placeCommand (s : State) (w : Word) : State :=
  { s.accept w with pending := .engine :: s.pending }

end Sys2Proof.Machine
end

