-- ==== Sys2Proof/Machine/Step.lean ====
section
/-! DEFINITION. One step of the machine (spec/00_scope.md rule R20, spec/20_memory.md rule R92). -/

namespace Sys2Proof.Machine

/-- One atomic step: the first of the steps still to come, or the engine's turn when none is (R272: an accepted command
completes) (DESIGN CHOICE, log entry 2). -/
def step (s : State) : Host.Outcome State Fault Refusal :=
  match s.pending with
  | [] => engineStep s
  | e :: _ => eventStep e s.popEvent

/-- `s` with the word of `nbits` bits `w` accepted as the command that the very next step completes
(DESIGN CHOICE, log entry 5). -/
def State.withFetchWord (s : State) (nbits w : Nat) : State := s.placeCommand (BitVec.ofNat 32 (w % 2 ^ nbits))

end Sys2Proof.Machine
end

