-- ==== Sys2Proof/Machine/HostProgram.lean ====
section
/-! DEFINITION. The host program notation (spec/30_encoding.md rules R117 to R119): offsets, the expansion of the
pseudo-instructions, and a host that runs a program against the machine, one bus access a line. The host is outside
FFX-FE: nothing of this file is part of State. -/

namespace Sys2Proof.Machine

/-- The offset of a named register (R32). -/
def regOffset : RegName → Nat
  | .id => 0x000
  | .ctrl => 0x004
  | .status => 0x008
  | .cmd => 0x00C
  | .radix => 0x010
  | .rounds => 0x014
  | .len => 0x018
  | .ridx => 0x01C
  | .olen => 0x020
  | .alen => 0x024
  | .blen => 0x028
  | .keylen => 0x02C
  | .cph => 0x030

/-- The offset of a target (R117). -/
def targetOffset : Target → BitVec 12
  | .reg r => BitVec.ofNat 12 (regOffset r)
  | .key w => BitVec.ofNat 12 (0x040 + 4 * w)
  | .inp k => BitVec.ofNat 12 (0x400 + 4 * k)
  | .out k => BitVec.ofNat 12 (0x800 + 4 * k)
  | .hex o => o

/-- The KEY word that LDKEY writes for the bytes `s[4w .. 4w+3]`, bytes past the end taken as 0 (R118). -/
def keyWord (s : List Byte) (w : Nat) : Word :=
  BitVec.ofNat 32 (beNat [s.getD (4 * w + 3) 0, s.getD (4 * w + 2) 0, s.getD (4 * w + 1) 0, s.getD (4 * w) 0])

/-- `LDKEY "<s>"` (R118): the KEY words, then KEYLEN. -/
def expandLdkey (s : List Byte) : List Line :=
  (List.range ((s.length + 3) / 4)).map (fun w => .write (.key w) (.lit (keyWord s w))) ++
    [.write (.reg .keylen) (.lit (BitVec.ofNat 32 s.length))]

/-- `LDIN k, [d0, …]` (R118). Its elements are any `<value>` of R117 (DESIGN CHOICE, log entry 23). -/
def expandLdin : Nat → List Value → List Line
  | _, [] => []
  | k, d :: ds => .write (.inp k) d :: expandLdin (k + 1) ds

/-- `WAIT` as line `n` of the source program (R118): poll until DONE = 1. Its label carries `n` (DEDUCED, log entry 19). -/
def expandWait (n : Nat) : List Line :=
  [.label (.wt n), .read (.reg .status) .s, .bne .s (.lit 0x2) (.lit 0x2) (.wt n)]

/-- `CMD <mn>` (R118). -/
def expandCmd (i : Instr) : List Line := [.write (.reg .cmd) (.mnemonic i)]

/-- `RDOUT k, m` (R118). -/
def expandRdout (k m : Nat) : List Line := (List.range m).map (fun j => .read (.out (k + j)) (.o (k + j)))

/-- The expansion of the `n`-th source line (R118). -/
def expandPseudo (n : Nat) : Pseudo → List Line
  | .plain l => [l]
  | .cmd i => expandCmd i
  | .ldkey s => expandLdkey s
  | .ldin k ds => expandLdin k ds
  | .wait => expandWait n
  | .run i => expandCmd i ++ expandWait n
  | .ack => [.write (.reg .status) (.lit 0xE)]
  | .srst => [.write (.reg .ctrl) (.lit 0x2)]
  | .rdout k m => expandRdout k m

/-- The expansion of the source lines from number `n` on (R118). -/
def expandProgram : Nat → List Pseudo → List Line
  | _, [] => []
  | n, p :: ps => expandPseudo n p ++ expandProgram (n + 1) ps

/-- Whether a logged access was a write or a read (R117). -/
inductive Direction where
  | w | r
deriving DecidableEq, Repr

/-- An entry `(W|R, offset, data)` of a program's encoding (R117); a read's data is the value returned. -/
structure LogEntry where
  dir    : Direction
  offset : BitVec 12
  data   : Word
deriving DecidableEq, Repr

/-- A host running a program against the machine: the lines, the line it stands at, the data it has read (latest
first), the accesses it has made (in order), and the machine. -/
structure Bench where
  lines : List Line
  line  : Nat
  names : List (ReadName × Word)
  log   : List LogEntry
  dev   : State
deriving DecidableEq, Repr

/-- The datum a host holds under a name, the latest read of it (R117); 0 before any
(DESIGN CHOICE, log entry 9). -/
def Bench.lookup (b : Bench) (x : ReadName) : Word := (b.names.lookup x).getD 0

/-- The word a `<value>` stands for (R117). -/
def Bench.value (b : Bench) : Value → Word
  | .lit v => v
  | .mnemonic i => encode i
  | .name x => b.lookup x

/-- The line a branch goes to: the first that bears the label, or the end of the program if none does. R117 says neither
(DESIGN CHOICE, log entry 9). -/
def Bench.labelLine (b : Bench) (l : Label) : Nat := b.lines.findIdx (fun x => decide (x = .label l))

/-- The data of a bus answer; a write answers none (R15). A host goes on after SLVERR (DESIGN CHOICE, log entry 10). -/
def answerData : Option BusAnswer → Word
  | some (.read _ v) => v
  | some (.write _) => 0
  | none => 0

/-- The host goes to the next line. -/
def Bench.advance (b : Bench) : Bench := { b with line := b.line + 1 }

/-- One whole-word access of the host (R15), made as the machine's next step. -/
def Bench.access (b : Bench) (a : Access) : Host.Outcome State Fault Refusal :=
  step { b.dev with pending := .access a :: b.dev.pending }

/-- The line `W <target>, <value>` (R117). -/
def Bench.runWrite (b : Bench) (t : Target) (v : Word) : Host.Outcome Bench Fault Refusal :=
  match b.access (busWrite (targetOffset t) v) with
  | .next d => .next { b.advance with dev := d, log := b.log ++ [{ dir := .w, offset := targetOffset t, data := v }] }
  | .fault f => .fault f
  | .refused r => .refused r

/-- The line `R <target> -> <name>` (R117). -/
def Bench.runRead (b : Bench) (t : Target) (x : ReadName) : Host.Outcome Bench Fault Refusal :=
  match b.access (busRead (targetOffset t)) with
  | .next d =>
    .next { b.advance with
      dev := d, names := (x, answerData d.resp) :: b.names,
      log := b.log ++ [{ dir := .r, offset := targetOffset t, data := answerData d.resp }] }
  | .fault f => .fault f
  | .refused r => .refused r

/-- The line `BNE <name>, <mask>, <value>, label` (R117), on what its mask and its value mean to the host. The mask is
any `<value>` (DESIGN CHOICE, log entry 23). -/
def Bench.runBranch (b : Bench) (x : ReadName) (mask value : Word) (l : Label) : Bench :=
  if b.lookup x &&& mask ≠ value then { b with line := b.labelLine l } else b.advance

/-- The host's turn: its next line, or nothing at the end of the program. -/
def Bench.hostTurn (b : Bench) : Host.Outcome Bench Fault Refusal :=
  match b.lines[b.line]? with
  | none => .next b
  | some (.write t v) => b.runWrite t (b.value v)
  | some (.read t x) => b.runRead t x
  | some (.label _) => .next b.advance
  | some (.bne x mask v l) => .next (b.runBranch x (b.value mask) (b.value v) l)

/-- The engine's turn (R264). -/
def Bench.engineTurn (b : Bench) : Host.Outcome Bench Fault Refusal :=
  match step { b.dev with pending := .engine :: b.dev.pending } with
  | .next d => .next { b with dev := d }
  | .fault f => .fault f
  | .refused r => .refused r

/-- A schedule, as the turns of the host (`true`) and of the engine (`false`) in order (R20, R271). -/
def Bench.run : List Bool → Bench → Host.Outcome Bench Fault Refusal
  | [], b => .next b
  | t :: ts, b =>
    match (if t then b.hostTurn else b.engineTurn) with
    | .next b' => Bench.run ts b'
    | .fault f => .fault f
    | .refused r => .refused r

/-- A host at the start of a program, with the machine just reset (R330). -/
def Bench.start (p : List Pseudo) : Bench :=
  { lines := expandProgram 0 p, line := 0, names := [], log := [], dev := State.reset }

end Sys2Proof.Machine
end

