-- ==== Sys2Proof/Safety.lean ====
section
/-! DEFINITION. What a state of FFX-FE that a run can reach looks like, in the terms the statements use. -/

namespace Sys2Proof.Machine

/-- STATUS is consistent: while BUSY, DONE, ERR and ERRCODE are what acceptance made them (R39, R261), and ERR is set
only beside a code other than OK (R37). -/
def State.statusConsistent (s : State) : Prop :=
  (s.phase = .busy → s.done = false ∧ s.err = false ∧ s.errcode = .ok) ∧ (s.err = true → s.errcode ≠ .ok)

/-- IN and OUT keep their canonical form and hold cells below MAX_LEN only (R9, R51, R52). -/
def State.buffersWf (s : State) : Prop := Memory.wf s.maxLen s.ops.inBuf ∧ Memory.wf s.maxLen s.outBuf

/-- The invariant of the machine: a legal MAX_LEN (R8), buffers in canonical form, a consistent STATUS. -/
def State.Inv (s : State) : Prop := legalMaxLen s.maxLen = true ∧ s.buffersWf ∧ s.statusConsistent

/-- `t` differs from `s` in nothing a command may not write: only OUT, STATUS.{DONE, ERR, ERRCODE} and PHASE may differ
(R114, R264). -/
def State.sameBeyondCompletion (s t : State) : Prop :=
  t.maxLen = s.maxLen ∧ t.ops = s.ops ∧ t.ie = s.ie ∧ t.ovr = s.ovr ∧ t.cur = s.cur ∧ t.pending = s.pending ∧
    t.resp = s.resp

/-- The number of OUT cells a command writes on success, from `OUT[0]` on (R114). -/
def cellsWritten : Instr → Operands → Nat
  | .nop, _ => 0
  | .enc, o => o.len.toNat
  | .dec, o => o.len.toNat
  | .rfn, o => o.olen.toNat
  | .dadd, o => min o.alen.toNat o.blen.toNat
  | .dsub, o => min o.alen.toNat o.blen.toNat

/-- An access is a soft reset (R268): a served write to CTRL with bit 1 set. -/
def isSoftReset (a : Access) : Bool :=
  served a && decide (a.offset = 0x004#12) &&
    (match a.op with
     | .read => false
     | .write _ v => bitOf v 1)

/-- A step of the total order that resets the device (R268, R330). -/
def resets : Event → Bool
  | .access a => isSoftReset a
  | .master addr size op =>
    match windowOffset addr with
    | some offset => isSoftReset { offset := offset, size := size, op := op }
    | none => false
  | .engine => false
  | .hardReset => true

end Sys2Proof.Machine
end

