-- ==== Sys2Proof/Certificates/Slice0/Obligations.lean ====
section
/-! DEFINITION. The statements about the model for the provers, and the words they are written in. -/

namespace Sys2Proof.Spec

open Sys2Proof.Machine

/-- `IN[k]` as a natural. -/
def inCell (s : State) (k : Nat) : Nat := (s.ops.inBuf.read k).toNat

/-- `IN[0..n-1]` holds digits below RADIX (R292 check 6 passes). -/
def inDigits (s : State) (n : Nat) : Prop := ∀ k < n, inCell s k < s.ops.radix.toNat

/-- ENC and DEC pass checks 2 to 6 of R292. -/
def feistelReady (s : State) : Prop :=
  s.ops.keylen.toNat ≤ 64 ∧ 2 ≤ s.ops.radix.toNat ∧ 1 ≤ s.ops.rounds.toNat ∧ 2 ≤ s.ops.len.toNat ∧
    s.ops.len.toNat ≤ s.maxLen ∧ inDigits s s.ops.len.toNat

/-- RFN passes checks 2 to 6 of R292. -/
def roundReady (s : State) : Prop :=
  s.ops.keylen.toNat ≤ 64 ∧ 2 ≤ s.ops.radix.toNat ∧ s.ops.len.toNat ≤ s.maxLen ∧ s.ops.olen.toNat ≤ s.maxLen ∧
    inDigits s s.ops.len.toNat

/-- DADD and DSUB pass checks 3 to 6 of R292. -/
def arithReady (s : State) : Prop :=
  2 ≤ s.ops.radix.toNat ∧ s.ops.alen.toNat + s.ops.blen.toNat ≤ s.maxLen ∧
    inDigits s (s.ops.alen.toNat + s.ops.blen.toNat)

/-- `t` is `s` after a completion with OK that wrote `d 0, …, d (n-1)` to `OUT[0..n-1]` and nothing else but STATUS and
PHASE (R264). -/
def completedOk (s t : State) (n : Nat) (d : Nat → Nat) : Prop :=
  s.sameBeyondCompletion t ∧ t.phase = .idle ∧ t.done = true ∧ t.err = false ∧ t.errcode = .ok ∧
    (∀ k < n, (t.outBuf.read k).toNat = d k) ∧ ∀ k, n ≤ k → t.outBuf.read k = s.outBuf.read k

/-- `s` after a completion with the error `c`: DONE = 1, ERR = 1, ERRCODE = c, IDLE, and nothing else (R264, R294). -/
def completedError (s : State) (c : ErrCode) : State :=
  { s with phase := .idle, done := true, err := true, errcode := c }

/-- `Encrypt` on the operands of ENC and DEC (R237). -/
def cipherOf (s : State) : Result :=
  encrypt s.ops.keyBytes s.ops.radix.toNat s.ops.rounds.toNat (s.ops.cells 0 s.ops.len.toNat)

/-- `Decrypt` on the operands of ENC and DEC (R238). -/
def plainOf (s : State) : Result :=
  decrypt s.ops.keyBytes s.ops.radix.toNat s.ops.rounds.toNat (s.ops.cells 0 s.ops.len.toNat)

/-- The digests `G_0, G_1, …` of R202 and R203 for the base message `p`. -/
def digestChain (key p : List Byte) : Nat → List Byte
  | 0 => hmacSha1 key (p ++ le32 0)
  | j + 1 => hmacSha1 key (digestChain key p j ++ le32 (j + 1))

/-- Digit `k` of the closed form of R207. -/
def closedDigit (key : List Byte) (r i : Nat) (s : Digits) (k : Nat) : Nat :=
  beNat (digestChain key ((i :: s).flatMap le32) (k / cph r)) / r ^ (k % cph r) % r

/-- The halves `(B, C)` that `Decrypt` holds when it comes to round index `i` (R234): the rounds above `i` are done. -/
def decHalves (key : List Byte) (r rounds i : Nat) (w : Digits) : Except ErrCode Halves :=
  ((List.range rounds).reverse.take (rounds - 1 - i)).foldlM (fun h j => decRound key r j h)
    (splitAt (decSplit rounds w.length) w)

/-- The first check of the list that fails gives the code `e` (R292). -/
def failsWith : List (Prop × ErrCode) → ErrCode → Prop
  | [], _ => False
  | (p, c) :: rest, e => (p ∧ e = c) ∨ (¬p ∧ failsWith rest e)

/-- Checks 2 to 6 of R292 for a command, in their order. -/
def checks (i : Instr) (s : State) : List (Prop × ErrCode) :=
  match i with
  | .nop => []
  | .enc => feistelChecks s
  | .dec => feistelChecks s
  | .rfn =>
    [(64 < s.ops.keylen.toNat, .keylen), (s.ops.radix.toNat < 2, .radix),
      (s.maxLen < s.ops.len.toNat ∨ s.maxLen < s.ops.olen.toNat, .length),
      (∃ k < s.ops.len.toNat, s.ops.radix.toNat ≤ inCell s k, .digit)]
  | .dadd => arithChecks s
  | .dsub => arithChecks s
where
  feistelChecks (s : State) : List (Prop × ErrCode) :=
    [(64 < s.ops.keylen.toNat, .keylen), (s.ops.radix.toNat < 2, .radix), (s.ops.rounds.toNat = 0, .rounds),
      (s.ops.len.toNat < 2 ∨ s.maxLen < s.ops.len.toNat, .length),
      (∃ k < s.ops.len.toNat, s.ops.radix.toNat ≤ inCell s k, .digit)]
  arithChecks (s : State) : List (Prop × ErrCode) :=
    [(s.ops.radix.toNat < 2, .radix), (s.maxLen < s.ops.alen.toNat + s.ops.blen.toNat, .length),
      (∃ k < s.ops.alen.toNat + s.ops.blen.toNat, s.ops.radix.toNat ≤ inCell s k, .digit)]

/-- Some round of `Encrypt` or `Decrypt` packs a value above `2^31 - 1`, in the halves it has reached (R239): its index, or
a digit of the half it hashes. -/
def roundFails (reach : Nat → Except ErrCode Halves) (hashed : Halves → Digits) (rounds : Nat) : Prop :=
  ∃ i < rounds, ∃ h, reach i = .ok h ∧ ∃ x ∈ i :: hashed h, 2 ^ 31 - 1 < x

/-- Some round of `Encrypt` that is reached packs a value above `2^31 - 1` (R239). -/
def encryptFails (key : List Byte) (r rounds : Nat) (v : Digits) : Prop :=
  roundFails (fun i => encRounds key r i (splitAt (v.length / 2) v)) (fun h => h.2) rounds

/-- Some round of `Decrypt` that is reached packs a value above `2^31 - 1` (R239). -/
def decryptFails (key : List Byte) (r rounds : Nat) (v : Digits) : Prop :=
  roundFails (fun i => decHalves key r rounds i v) (fun h => h.1) rounds

/-- Which commands raise a code, and on what cause (R290, R239). -/
def hasCause (i : Instr) (s : State) : ErrCode → Prop
  | .ok => True
  | .opcode => False
  | .keylen => (i = .enc ∨ i = .dec ∨ i = .rfn) ∧ 64 < s.ops.keylen.toNat
  | .radix => i ≠ .nop ∧ s.ops.radix.toNat < 2
  | .rounds => (i = .enc ∨ i = .dec) ∧ s.ops.rounds.toNat = 0
  | .length =>
    ((i = .enc ∨ i = .dec) ∧ (s.ops.len.toNat < 2 ∨ s.maxLen < s.ops.len.toNat)) ∨
      (i = .rfn ∧ (s.maxLen < s.ops.len.toNat ∨ s.maxLen < s.ops.olen.toNat)) ∨
      ((i = .dadd ∨ i = .dsub) ∧ s.maxLen < s.ops.alen.toNat + s.ops.blen.toNat)
  | .digit =>
    ((i = .enc ∨ i = .dec ∨ i = .rfn) ∧ ∃ k < s.ops.len.toNat, s.ops.radix.toNat ≤ inCell s k) ∨
      ((i = .dadd ∨ i = .dsub) ∧
        ∃ k < s.ops.alen.toNat + s.ops.blen.toNat, s.ops.radix.toNat ≤ inCell s k)
  | .encoding =>
    ((i = .enc ∨ i = .dec) ∧ (2 ^ 31 < s.ops.rounds.toNat ∨ 2 ^ 31 < s.ops.radix.toNat) ∧
        (i = .enc → encryptFails s.ops.keyBytes s.ops.radix.toNat s.ops.rounds.toNat (s.ops.cells 0 s.ops.len.toNat)) ∧
        (i = .dec → decryptFails s.ops.keyBytes s.ops.radix.toNat s.ops.rounds.toNat (s.ops.cells 0 s.ops.len.toNat))) ∨
      (i = .rfn ∧ (2 ^ 31 - 1 < s.ops.ridx.toNat ∨ ∃ k < s.ops.len.toNat, 2 ^ 31 - 1 < inCell s k))

/-- Two operand states agree on all that a command reads (the table of R114). -/
def agreeOn (i : Instr) (o p : Operands) : Prop :=
  match i with
  | .nop => True
  | .enc => agreeCipher o p
  | .dec => agreeCipher o p
  | .rfn =>
    o.keylen = p.keylen ∧ o.keyBytes = p.keyBytes ∧ o.radix = p.radix ∧ o.ridx = p.ridx ∧ o.len = p.len ∧
      o.olen = p.olen ∧ ∀ k < o.len.toNat, o.inBuf.read k = p.inBuf.read k
  | .dadd => agreeArith o p
  | .dsub => agreeArith o p
where
  agreeCipher (o p : Operands) : Prop :=
    o.keylen = p.keylen ∧ o.keyBytes = p.keyBytes ∧ o.radix = p.radix ∧ o.rounds = p.rounds ∧ o.len = p.len ∧
      ∀ k < o.len.toNat, o.inBuf.read k = p.inBuf.read k
  agreeArith (o p : Operands) : Prop :=
    o.radix = p.radix ∧ o.alen = p.alen ∧ o.blen = p.blen ∧
      ∀ k < o.alen.toNat + o.blen.toNat, o.inBuf.read k = p.inBuf.read k

/-- `s` after a write that only answers OKAY. -/
def okayOnly (s : State) : State := { s with resp := some (.write .okay) }

/-- `s` after a write that is lost while BUSY (R262, R265). -/
def lost (s : State) : State := { s with ovr := true, resp := some (.write .okay) }

/-- `s` after the operand registers, KEY or IN have been replaced by a write (R260). -/
def stored (s : State) (o : Operands) : State := { s with ops := o, resp := some (.write .okay) }

/-- The offsets of the eight operand registers (R32). -/
def operandOffsets : List (BitVec 12) :=
  [0x010#12, 0x014#12, 0x018#12, 0x01C#12, 0x020#12, 0x024#12, 0x028#12, 0x02C#12]

/-- The offset of KEY[w] (R32). -/
def keyOffset (w : Nat) : BitVec 12 := BitVec.ofNat 12 (0x040 + 4 * w)

/-- The offset of IN[k] (R32). -/
def inOffset (k : Nat) : BitVec 12 := BitVec.ofNat 12 (0x400 + 4 * k)

/-- The offset of OUT[k] (R32). -/
def outOffset (k : Nat) : BitVec 12 := BitVec.ofNat 12 (0x800 + 4 * k)

/-- The word a served read of an offset answers. -/
def reads (s : State) (a : BitVec 12) (v : Word) : Prop := s.serve (busRead a) = { s with resp := some (.read .okay v) }

/-- The reserved offsets of R83 that are a multiple of 4. -/
def reservedOffset (maxLen : Nat) (a : Nat) : Prop :=
  a < 4096 ∧ a % 4 = 0 ∧
    ((0x034 ≤ a ∧ a ≤ 0x03C) ∨ (0x080 ≤ a ∧ a ≤ 0x3FC) ∨ (0xC00 ≤ a ∧ a ≤ 0xFFC) ∨
      (∃ k, maxLen ≤ k ∧ k < 256 ∧ (a = 0x400 + 4 * k ∨ a = 0x800 + 4 * k)))

end Sys2Proof.Spec

open Sys2Proof Sys2Proof.Machine Sys2Proof.Spec

/-! ### Encoding -/

/-- R110, R111: every command is well formed and its word decodes to it. -/
def Obligations.DecodeOfEncodeIsTheCommand : Prop := ∀ i : Instr, i.wellFormed = true ∧ decode (encode i) = .ok i

/-- R111, R113 and the rows of 95_test_vectors.md §3.5: command words written out bit by bit. -/
def Obligations.WrittenOutWordsDecode : Prop :=
  decode 0b00000000000000000000000000000000#32 = .ok .nop ∧ decode 0b00000000000000000000000000000001#32 = .ok .enc ∧
  decode 0b00000000000000000000000000000010#32 = .ok .dec ∧ decode 0b00000000000000000000000000000011#32 = .ok .rfn ∧
  decode 0b00000000000000000000000000000100#32 = .ok .dadd ∧ decode 0b00000000000000000000000000000101#32 = .ok .dsub ∧
  decode 0b00000000000000000000000000000110#32 = .error .opReserved ∧
  decode 0b00000000000000000000000000001111#32 = .error .opReserved ∧
  decode 0b00000000000000000000000000010000#32 = .error .rsvdSet ∧
  decode 0b10000000000000000000000000000001#32 = .error .rsvdSet

/-- R112: the decoder by the fields RSVD and OP, for every word. -/
def Obligations.DecodeFollowsTheFields : Prop :=
  ∀ w : Word,
    (w.extractLsb' 4 28 ≠ 0#28 → decode w = .error .rsvdSet) ∧
    (w.extractLsb' 4 28 = 0#28 →
      (w.extractLsb' 0 4 = 0x0#4 → decode w = .ok .nop) ∧ (w.extractLsb' 0 4 = 0x1#4 → decode w = .ok .enc) ∧
      (w.extractLsb' 0 4 = 0x2#4 → decode w = .ok .dec) ∧ (w.extractLsb' 0 4 = 0x3#4 → decode w = .ok .rfn) ∧
      (w.extractLsb' 0 4 = 0x4#4 → decode w = .ok .dadd) ∧ (w.extractLsb' 0 4 = 0x5#4 → decode w = .ok .dsub) ∧
      (6 ≤ (w.extractLsb' 0 4).toNat → decode w = .error .opReserved))

/-! ### The step -/

/-- R92, R263, R264: a step takes the first event. The engine's turn, or a step with nothing pending, runs the accepted
command when BUSY, or ends a reserved word with ERR_OPCODE, and changes nothing when IDLE. An access is served and a hard
reset resets. With nothing pending the step is the engine's turn: that is the model's choice (log entry 2). The
last clause, on `withFetchWord`, rests on the model's way of placing a command (log entry 5). -/
def Obligations.StepRunsTheAcceptedCommand : Prop :=
  (∀ (s : State) (i : Instr) (rest : List Event), s.phase = .busy → decode s.cur = .ok i →
    (s.pending = .engine :: rest → step s = exec i { s with pending := rest }) ∧ (s.pending = [] → step s = exec i s)) ∧
  (∀ (s : State) (r : DecodeReject) (rest : List Event), s.phase = .busy → decode s.cur = .error r →
    (s.pending = .engine :: rest → step s = .next (completedError { s with pending := rest } .opcode)) ∧
      (s.pending = [] → step s = .next (completedError s .opcode))) ∧
  (∀ (s : State) (rest : List Event), s.phase = .idle →
    (s.pending = .engine :: rest → step s = .next { s with pending := rest }) ∧ (s.pending = [] → step s = .next s)) ∧
  (∀ (s : State) (a : Access) (rest : List Event), s.pending = .access a :: rest →
    step s = .next ({ s with pending := rest }.serve a)) ∧
  (∀ (s : State) (addr : Nat) (size : AccessSize) (op : BusOp) (rest : List Event),
    s.pending = .master addr size op :: rest → step s = .next ({ s with pending := rest }.serveMaster addr size op)) ∧
  (∀ (s : State) (rest : List Event), s.pending = .hardReset :: rest →
    step s = .next { State.resetWith s.maxLen with pending := rest }) ∧
  ∀ (s : State) (i : Instr), step (s.withFetchWord 32 (encode i).toNat) = exec i (s.accept (encode i))

/-- R272: a step always answers a next state, whatever the state. -/
def Obligations.StepNeverStops : Prop := ∀ s : State, ∃ t, step s = .next t

/-- R113: a reserved word written to CMD while IDLE is accepted, and the engine completes it with ERR_OPCODE and no other
effect. -/
def Obligations.ReservedWordCompletesWithErrOpcode : Prop :=
  ∀ (s : State) (w : Word) (rest : List Event), s.phase = .idle →
    (w.extractLsb' 4 28 ≠ 0#28 ∨ 6 ≤ (w.extractLsb' 0 4).toNat) →
    s.pending = .access (busWrite 0x00C#12 w) :: .engine :: rest →
    core.run 2 s =
      .next { s with
        cur := w, phase := .idle, done := true, err := true, errcode := .opcode, pending := rest,
        resp := some (.write .okay) }

/-! ### The commands complete -/

/-- R267: NOP completes with OK whatever the state holds, writes STATUS and PHASE only, and raises irq if IE = 1. -/
def Obligations.NopCompletesWithOk : Prop :=
  ∀ s : State, ∃ t, exec .nop s = .next t ∧ t = { s with phase := .idle, done := true, err := false, errcode := .ok } ∧
    t.irq = s.ie

/-- R143: DADD on operands that pass its checks completes with the elementwise sums modulo RADIX in
`OUT[0..min(ALEN,BLEN)-1]` and leaves every other cell. -/
def Obligations.DaddCompletesWithTheSums : Prop :=
  ∀ s : State, s.Inv → arithReady s → ∃ t, exec .dadd s = .next t ∧
    completedOk s t (min s.ops.alen.toNat s.ops.blen.toNat)
      (fun k => (inCell s k + inCell s (s.ops.alen.toNat + k)) % s.ops.radix.toNat)

/-- R144: DSUB on operands that pass its checks completes with the elementwise differences, never negative. -/
def Obligations.DsubCompletesWithTheDifferences : Prop :=
  ∀ s : State, s.Inv → arithReady s → ∃ t, exec .dsub s = .next t ∧
    completedOk s t (min s.ops.alen.toNat s.ops.blen.toNat)
      (fun k =>
        if inCell s (s.ops.alen.toNat + k) ≤ inCell s k then inCell s k - inCell s (s.ops.alen.toNat + k)
        else inCell s k + s.ops.radix.toNat - inCell s (s.ops.alen.toNat + k))

/-- R207, R211: RFN on operands that pass its checks and pack completes with the digits of the closed form in
`OUT[0..OLEN-1]`. -/
def Obligations.RfnCompletesWithTheClosedForm : Prop :=
  ∀ s : State, s.Inv → roundReady s → s.ops.ridx.toNat ≤ 2 ^ 31 - 1 →
    (∀ k < s.ops.len.toNat, inCell s k ≤ 2 ^ 31 - 1) → ∃ t, exec .rfn s = .next t ∧
      completedOk s t s.ops.olen.toNat
        (closedDigit s.ops.keyBytes s.ops.radix.toNat s.ops.ridx.toNat (s.ops.cells 0 s.ops.len.toNat))

/-- R209, R211: RFN whose round index or some digit does not pack completes with ERR_ENCODING, whatever OLEN. -/
def Obligations.RfnReportsWhatItCannotPack : Prop :=
  ∀ s : State, roundReady s →
    (2 ^ 31 - 1 < s.ops.ridx.toNat ∨ ∃ k < s.ops.len.toNat, 2 ^ 31 - 1 < inCell s k) →
    exec .rfn s = .next (completedError s .encoding)

/-- R237, R239: ENC on operands that pass its checks, with RADIX and ROUNDS at most `2^31`, completes with `Encrypt`'s
result in `OUT[0..LEN-1]`. -/
def Obligations.EncCompletesWithTheCiphertext : Prop :=
  ∀ s : State, s.Inv → feistelReady s → s.ops.radix.toNat ≤ 2 ^ 31 → s.ops.rounds.toNat ≤ 2 ^ 31 →
    ∃ w t, cipherOf s = .ok w ∧ exec .enc s = .next t ∧ completedOk s t s.ops.len.toNat (fun k => w.getD k 0)

/-- R238, R239: DEC on operands that pass its checks, with RADIX and ROUNDS at most `2^31`, completes with `Decrypt`'s
result in `OUT[0..LEN-1]`. -/
def Obligations.DecCompletesWithThePlaintext : Prop :=
  ∀ s : State, s.Inv → feistelReady s → s.ops.radix.toNat ≤ 2 ^ 31 → s.ops.rounds.toNat ≤ 2 ^ 31 →
    ∃ v t, plainOf s = .ok v ∧ exec .dec s = .next t ∧ completedOk s t s.ops.len.toNat (fun k => v.getD k 0)

/-- R237, R238, R239 for every radix and round count: ENC and DEC past their checks complete with the cipher's result,
or with ERR_ENCODING exactly when the cipher raises it. -/
def Obligations.CipherOutcomeForEveryRadix : Prop :=
  ∀ s : State, s.Inv → feistelReady s →
    ((∃ w t, cipherOf s = .ok w ∧ exec .enc s = .next t ∧ completedOk s t s.ops.len.toNat (fun k => w.getD k 0)) ∨
      (cipherOf s = .error .encoding ∧ exec .enc s = .next (completedError s .encoding))) ∧
    ((∃ v t, plainOf s = .ok v ∧ exec .dec s = .next t ∧ completedOk s t s.ops.len.toNat (fun k => v.getD k 0)) ∨
      (plainOf s = .error .encoding ∧ exec .dec s = .next (completedError s .encoding)))

/-! ### Errors, reads and writes of the commands -/

/-- R292: the first check that fails, in the order of R292, gives the code. A command that passes its checks ends with OK
or ERR_ENCODING. -/
def Obligations.ChecksRunInOrder : Prop :=
  (∀ (i : Instr) (s : State) (e : ErrCode), failsWith (checks i s) e → exec i s = .next (completedError s e)) ∧
  (∀ (i : Instr) (s t : State), (∀ e, ¬failsWith (checks i s) e) → exec i s = .next t →
    t.errcode = .ok ∨ t.errcode = .encoding) ∧
  ∀ (s : State) (r : DecodeReject), decode s.cur = .error r → completion s = .next (completedError s .opcode)

/-- R290: a code is raised only by the commands the table lists for it, and only on its cause. Its number is below 8. -/
def Obligations.CodesHaveTheirCause : Prop :=
  ∀ (i : Instr) (s t : State), exec i s = .next t → hasCause i s t.errcode ∧ t.errcode.number < 8

/-- R294: a completion with an error records the code, ERR = 1 and DONE = 1, and changes no cell and no other register. -/
def Obligations.ErrorRecordsOnlyItsCode : Prop :=
  ∀ s t : State, completion s = .next t → t.errcode ≠ .ok → t = completedError s t.errcode

/-- R114, R264: the frame of all six commands. Only OUT cells below the command's extent, STATUS.{DONE, ERR, ERRCODE}
and PHASE may differ, and no OUT cell when the code is not OK. -/
def Obligations.CommandFrame : Prop :=
  ∀ (i : Instr) (s t : State), s.Inv → exec i s = .next t →
    s.sameBeyondCompletion t ∧ t.phase = .idle ∧ t.done = true ∧ (t.err = true ↔ t.errcode ≠ .ok) ∧
      (∀ k, cellsWritten i s.ops ≤ k → t.outBuf.read k = s.outBuf.read k) ∧
      (t.errcode ≠ .ok → t.outBuf = s.outBuf)

/-- R114, R263: the code and the cells written are a function of what R114 lists for the command. Two states that agree
on it give one result, whatever else they hold. -/
def Obligations.ResultReadsOnlyItsOperands : Prop :=
  ∀ (i : Instr) (s s' t t' : State), s.Inv → s'.Inv → s.maxLen = s'.maxLen → agreeOn i s.ops s'.ops →
    exec i s = .next t → exec i s' = .next t' →
    t.errcode = t'.errcode ∧
      (t.errcode = .ok → cellsWritten i s.ops = cellsWritten i s'.ops ∧
        ∀ k < cellsWritten i s.ops, t.outBuf.read k = t'.outBuf.read k)

/-! ### Digit arithmetic -/

/-- R140: `DigitAdd` elementwise, cut to the shorter operand. -/
def Obligations.DigitAddIsElementwise : Prop :=
  ∀ (r : Nat) (a b : Digits), 2 ≤ r →
    (digitAdd r a b).length = min a.length b.length ∧
      ∀ k < min a.length b.length, (digitAdd r a b)[k]? = some ((a.getD k 0 + b.getD k 0) % r)

/-- R141: `DigitSub` elementwise, normalized into `[0, r)`, in the rule's three forms. -/
def Obligations.DigitSubIsNormalized : Prop :=
  ∀ (r : Nat) (a b : Digits), 2 ≤ r →
    (digitSub r a b).length = min a.length b.length ∧
      ∀ k < min a.length b.length, ∃ c, (digitSub r a b)[k]? = some c ∧ c < r ∧
        (c : Int) = (((a.getD k 0 : Nat) : Int) - ((b.getD k 0 : Nat) : Int)) % (r : Int) ∧
        (a.getD k 0 < r → b.getD k 0 < r →
          c = if b.getD k 0 ≤ a.getD k 0 then a.getD k 0 - b.getD k 0 else a.getD k 0 + r - b.getD k 0) ∧
        c = (a.getD k 0 + r * ((b.getD k 0 + r - 1) / r) - b.getD k 0) % r

/-- R146: addition and subtraction undo each other on digits of equal length. -/
def Obligations.DigitAddAndSubCancel : Prop :=
  ∀ (r : Nat) (a b : Digits), (∀ d ∈ a, d < r) → (∀ d ∈ b, d < r) → a.length = b.length →
    digitSub r (digitAdd r a b) b = a ∧ digitAdd r (digitSub r a b) b = a

/-! ### Bytes, SHA-1 and HMAC -/

/-- R12: `LE32`, `BE32` and `BEnat` in the rule's words. -/
def Obligations.ByteOrders : Prop :=
  (∀ v : Nat, v < 2 ^ 32 →
    (le32 v).map BitVec.toNat = [v % 256, v / 2 ^ 8 % 256, v / 2 ^ 16 % 256, v / 2 ^ 24] ∧ be32 v = (le32 v).reverse ∧
      beNat (be32 v) = v) ∧
  ∀ x : List Byte, beNat x = ((List.range x.length).map fun k => (x.getD k 0).toNat * 256 ^ (x.length - 1 - k)).sum

/-- R161: the padded message is the message, 0x80, the shortest run of zero bytes that makes a multiple of 64, and the
bit length in 8 bytes, big-endian. -/
def Obligations.Sha1PaddingIsTheShortest : Prop :=
  ∀ m : List Byte, m.length < 2 ^ 61 → ∃ z : Nat, z < 64 ∧ (z : Int) = (55 - (m.length : Int)) % 64 ∧
    sha1Pad m = m ++ [0x80#8] ++ List.replicate z 0#8 ++ be64 (8 * m.length) ∧ (be64 (8 * m.length)).length = 8 ∧
    beNat (be64 (8 * m.length)) = 8 * m.length ∧ (sha1Pad m).length % 64 = 0 ∧
    ∀ y < z, (m.length + 1 + y + 8) % 64 ≠ 0

/-- R162, R165: the schedule has 80 words, the first sixteen read big-endian from the block, each later one by the
recurrence. -/
def Obligations.Sha1ScheduleFollowsTheRecurrence : Prop :=
  ∀ b : List Byte, b.length = 64 →
    (sha1Schedule b).length = 80 ∧
    (∀ t < 16, (sha1Schedule b).getD t 0 = BitVec.ofNat 32 (beNat ((b.drop (4 * t)).take 4))) ∧
    ∀ t, 16 ≤ t → t < 80 → (sha1Schedule b).getD t 0 =
      rotl 1 ((sha1Schedule b).getD (t - 3) 0 ^^^ (sha1Schedule b).getD (t - 8) 0 ^^^ (sha1Schedule b).getD (t - 14) 0 ^^^
        (sha1Schedule b).getD (t - 16) 0)

/-- R171: for a key of at most 64 bytes HMAC is the two nested SHA-1 computations of the rule. A digest has 20 bytes and is
a natural below `2^160` (R203, R204), and the zero bytes that fill a key up to 64 change no digest (95_test_vectors.md §1). -/
def Obligations.DigestShapeAndKeyPadding : Prop :=
  ∀ key m : List Byte,
    (key.length ≤ 64 →
      hmacSha1 key m =
        sha1 ((List.range 64).map (fun t => key.getD t 0x00#8 ^^^ 0x5C#8) ++
          sha1 ((List.range 64).map (fun t => key.getD t 0x00#8 ^^^ 0x36#8) ++ m))) ∧
    (hmacSha1 key m).length = 20 ∧ beNat (hmacSha1 key m) < 2 ^ 160 ∧
    ∀ z, key.length + z ≤ 64 → hmacSha1 (key ++ List.replicate z 0#8) m = hmacSha1 key m

/-- R160, R163 to R166: SHA-1's rotation, initial value, functions and constants, the 80 steps of the compression, and the
digest of the last hash value. The padding and the schedule are the two statements before. -/
def Obligations.Sha1IsTheRulesLoop : Prop :=
  (∀ (x : Word) (n : Nat), 0 < n → n < 32 → (rotl n x).toNat = (x.toNat <<< n ||| x.toNat >>> (32 - n)) % 2 ^ 32) ∧
  sha1Init = { a := 0x67452301#32, b := 0xEFCDAB89#32, c := 0x98BADCFE#32, d := 0x10325476#32, e := 0xC3D2E1F0#32 } ∧
  (∀ (t : Nat) (b c d : Word),
    (t ≤ 19 → sha1F t b c d = (b &&& c) ||| (~~~b &&& d) ∧ sha1K t = 0x5A827999#32) ∧
    (20 ≤ t → t ≤ 39 → sha1F t b c d = b ^^^ c ^^^ d ∧ sha1K t = 0x6ED9EBA1#32) ∧
    (40 ≤ t → t ≤ 59 → sha1F t b c d = (b &&& c) ||| (b &&& d) ||| (c &&& d) ∧ sha1K t = 0x8F1BBCDC#32) ∧
    (60 ≤ t → t ≤ 79 → sha1F t b c d = b ^^^ c ^^^ d ∧ sha1K t = 0xCA62C1D6#32)) ∧
  (∀ (h : HashWords) (block : List Byte), block.length = 64 →
    ∃ g : HashWords,
      g = (List.range 80).foldl
        (fun (g : HashWords) t =>
          { a := rotl 5 g.a + sha1F t g.b g.c g.d + g.e + sha1K t + (sha1Schedule block).getD t 0, b := g.a,
            c := rotl 30 g.b, d := g.c, e := g.d }) h ∧
      sha1Compress h block = { a := h.a + g.a, b := h.b + g.b, c := h.c + g.c, d := h.d + g.d, e := h.e + g.e }) ∧
  ∀ m : List Byte, ∃ h : HashWords,
    h = (List.range ((sha1Pad m).length / 64)).foldl
      (fun h i => sha1Compress h (((sha1Pad m).drop (64 * i)).take 64)) sha1Init ∧
    sha1 m = be32 h.a.toNat ++ be32 h.b.toNat ++ be32 h.c.toNat ++ be32 h.d.toNat ++ be32 h.e.toNat

/-! ### The round function -/

/-- R201: the base message is the packed round index and digits in order, `4 + 4 * len(s)` bytes, or ERR_ENCODING when
some value is above `2^31 - 1`. -/
def Obligations.BaseMessageIsThePackedValues : Prop :=
  ∀ (i : Nat) (s : Digits),
    ((∀ v ∈ i :: s, v ≤ 2 ^ 31 - 1) →
      packAll (i :: s) = .ok (le32 i ++ s.flatMap le32) ∧ (le32 i ++ s.flatMap le32).length = 4 + 4 * s.length) ∧
    ((∃ v ∈ i :: s, 2 ^ 31 - 1 < v) → packAll (i :: s) = .error .encoding)

/-- R205: `CPH(r)` is the largest `k` with `r^k <= 2^160`, with the rule's values and bounds. -/
def Obligations.CphIsTheLargestPower : Prop :=
  (∀ r k : Nat, 2 ≤ r → (k ≤ cph r ↔ r ^ k ≤ 2 ^ 160)) ∧
  (∀ r : Nat, 2 ≤ r → r < 2 ^ 32 → 5 ≤ cph r ∧ cph r ≤ 160) ∧
  [2, 3, 4, 10, 16, 26, 32, 36, 62, 100, 256, 1000, 1024, 65536, 2 ^ 20, 2 ^ 31, 2 ^ 32 - 1].map cph =
    [160, 100, 80, 48, 40, 34, 32, 30, 26, 24, 20, 16, 16, 10, 8, 5, 5]

/-- R202 to R207, R210: the round function in closed form, for every legal radix and values that pack. -/
def Obligations.RoundFnIsTheClosedForm : Prop :=
  ∀ (key : List Byte) (r i l : Nat) (s : Digits), 2 ≤ r → r < 2 ^ 32 → (∀ v ∈ i :: s, v ≤ 2 ^ 31 - 1) →
    roundFn key r i s l = .ok ((List.range l).map (closedDigit key r i s))

/-! ### The Feistel engine -/

/-- R231: `Encrypt` is the rule's loop over the round indices in ascending order. -/
def Obligations.EncryptIsTheAscendingLoop : Prop :=
  ∀ (key : List Byte) (r rounds : Nat) (v : Digits),
    encrypt key r rounds v =
      ((List.range rounds).foldlM (m := Except ErrCode)
        (fun (h : Digits × Digits) i => do
          let f ← roundFn key r i h.2 h.1.length
          pure (h.2, digitAdd r h.1 f))
        (v.take (v.length / 2), v.drop (v.length / 2))).map (fun h => h.1 ++ h.2)

/-- R233, R234: `Decrypt` splits by the parity of the round count and is the rule's loop in descending order. -/
def Obligations.DecryptIsTheDescendingLoop : Prop :=
  ∀ (key : List Byte) (r rounds : Nat) (w : Digits) (f : Nat),
    f = (if rounds % 2 = 0 then w.length / 2 else w.length - w.length / 2) →
    decrypt key r rounds w =
      ((List.range rounds).reverse.foldlM (m := Except ErrCode)
        (fun (h : Digits × Digits) i => do
          let g ← roundFn key r i h.1 h.2.length
          pure (digitSub r h.2 g, h.1))
        (w.take f, w.drop f)).map (fun h => h.1 ++ h.2)

/-- R232: the lengths of the halves after `n` rounds, and of the next round's `F` and `C`. -/
def Obligations.HalvesKeepTheirLengths : Prop :=
  ∀ (key : List Byte) (r n : Nat) (v : Digits) (g : Digits × Digits), 2 ≤ r → r < 2 ^ 32 → (∀ d ∈ v, d < r) →
    encRounds key r n (splitAt (v.length / 2) v) = .ok g →
    (n % 2 = 0 → g.1.length = v.length / 2 ∧ g.2.length = v.length - v.length / 2) ∧
    (n % 2 = 1 → g.1.length = v.length - v.length / 2 ∧ g.2.length = v.length / 2) ∧
    (∀ f, roundFn key r n g.2 g.1.length = .ok f → f.length = g.1.length ∧ (digitAdd r g.1 f).length = g.1.length) ∧
    ∀ w, encrypt key r n v = .ok w → w = g.1 ++ g.2

/-- R235: decryption inverts encryption and encryption inverts decryption, for every key, every legal radix (R8: 2 to
`2^32 - 1`), round count and length at least 2. -/
def Obligations.DecryptInvertsEncrypt : Prop :=
  ∀ (key : List Byte) (r rounds : Nat) (v w : Digits), 2 ≤ r → r < 2 ^ 32 → 1 ≤ rounds → 2 ≤ v.length →
    2 ≤ w.length → (∀ d ∈ v, d < r) → (∀ d ∈ w, d < r) →
    (encrypt key r rounds v = .ok w ↔ decrypt key r rounds w = .ok v)

/-- R236: length preservation and alphabet closure. -/
def Obligations.CipherKeepsShape : Prop :=
  ∀ (key : List Byte) (r rounds : Nat) (v w : Digits), 2 ≤ r → r < 2 ^ 32 → (∀ d ∈ v, d < r) →
    (encrypt key r rounds v = .ok w ∨ decrypt key r rounds v = .ok w) → w.length = v.length ∧ ∀ d ∈ w, d < r

/-- R239, for the legal radixes of R8: when ENC and DEC raise ERR_ENCODING. -/
def Obligations.EncodingFailsExactlyWhenSomethingDoesNotPack : Prop :=
  ∀ (key : List Byte) (r rounds : Nat) (v : Digits), 2 ≤ r → r < 2 ^ 32 → (∀ d ∈ v, d < r) →
    (2 ^ 31 < rounds → encrypt key r rounds v = .error .encoding ∧ decrypt key r rounds v = .error .encoding) ∧
    (r ≤ 2 ^ 31 → rounds ≤ 2 ^ 31 → ∃ w u, encrypt key r rounds v = .ok w ∧ decrypt key r rounds v = .ok u) ∧
    (encrypt key r rounds v = .error .encoding ↔ encryptFails key r rounds v) ∧
    (decrypt key r rounds v = .error .encoding ↔ decryptFails key r rounds v) ∧
    ∀ e, encrypt key r rounds v = .error e ∨ decrypt key r rounds v = .error e → e = .encoding

/-- R235, R333 on the machine: ENC, the host's copy of OUT to IN, and DEC under the same registers give back the
plaintext. -/
def Obligations.EncCopyDecRoundTrip : Prop :=
  ∀ s t u : State, s.Inv → feistelReady s → exec .enc s = .next t → t.errcode = .ok →
    u.ops = { t.ops with inBuf := u.ops.inBuf } → u.maxLen = t.maxLen → u.Inv →
    (∀ k < s.ops.len.toNat, u.ops.inBuf.read k = t.outBuf.read k) →
    ∃ x, exec .dec u = .next x ∧ x.errcode = .ok ∧ ∀ k < s.ops.len.toNat, x.outBuf.read k = s.ops.inBuf.read k

/-! ### Command lifecycle -/

/-- R261: acceptance. -/
def Obligations.AcceptanceLatchesTheCommand : Prop :=
  ∀ (s : State) (w : Word), s.phase = .idle →
    s.serve (busWrite 0x00C#12 w) =
      { s with cur := w, phase := .busy, done := false, err := false, errcode := .ok, resp := some (.write .okay) }

/-- R260: a write while IDLE to a RW register, to KEY or to IN stores its value at once, and nothing else, and the engine
has no step to take. -/
def Obligations.IdleWritesStore : Prop :=
  ∀ (s : State) (v : Word), s.phase = .idle → s.maxLen ≤ 256 →
    engineStep s = .next s ∧
    (v.getLsbD 1 = false → s.serve (busWrite 0x004#12 v) = okayOnly { s with ie := v.getLsbD 0 }) ∧
    s.serve (busWrite 0x010#12 v) = stored s { s.ops with radix := v } ∧
    s.serve (busWrite 0x014#12 v) = stored s { s.ops with rounds := v } ∧
    s.serve (busWrite 0x018#12 v) = stored s { s.ops with len := v } ∧
    s.serve (busWrite 0x01C#12 v) = stored s { s.ops with ridx := v } ∧
    s.serve (busWrite 0x020#12 v) = stored s { s.ops with olen := v } ∧
    s.serve (busWrite 0x024#12 v) = stored s { s.ops with alen := v } ∧
    s.serve (busWrite 0x028#12 v) = stored s { s.ops with blen := v } ∧
    s.serve (busWrite 0x02C#12 v) = stored s { s.ops with keylen := v } ∧
    (∀ w (h : w < 16), s.serve (busWrite (keyOffset w) v) = stored s { s.ops with key := s.ops.key.set w v h }) ∧
    ∀ k < s.maxLen, ∃ m, s.serve (busWrite (inOffset k) v) = stored s { s.ops with inBuf := m } ∧
      (s.buffersWf → ∀ j, m.read j = if j = k then v else s.ops.inBuf.read j)

/-- R262, and the lost writes of R265: a write while BUSY to CMD, an operand register, KEY or an IN cell is lost and sets OVR. -/
def Obligations.WritesWhileBusyAreLost : Prop :=
  ∀ (s : State) (v : Word), s.phase = .busy → s.maxLen ≤ 256 →
    s.serve (busWrite 0x00C#12 v) = lost s ∧ (∀ a ∈ operandOffsets, s.serve (busWrite a v) = lost s) ∧
    (∀ w < 16, s.serve (busWrite (keyOffset w) v) = lost s) ∧
    (∀ k < s.maxLen, s.serve (busWrite (inOffset k) v) = lost s)

/-- R83, R85, R265: a write to ID, CPH, an OUT cell or a reserved offset is ignored with OKAY in either phase and never
sets OVR. -/
def Obligations.ReadOnlyAndReservedIgnoreWrites : Prop :=
  ∀ (s : State) (v : Word), s.maxLen ≤ 256 →
    s.serve (busWrite 0x000#12 v) = okayOnly s ∧ s.serve (busWrite 0x030#12 v) = okayOnly s ∧
    (∀ k < s.maxLen, s.serve (busWrite (outOffset k) v) = okayOnly s) ∧
    ∀ a, reservedOffset s.maxLen a → s.serve (busWrite (BitVec.ofNat 12 a) v) = okayOnly s

/-- R268, R331: the soft reset gives the reset state in either phase, and irq falls. -/
def Obligations.SoftResetGivesTheResetState : Prop :=
  ∀ (s : State) (v : Word), v.getLsbD 1 = true →
    s.serve (busWrite 0x004#12 v) =
      { State.resetWith s.maxLen with pending := s.pending, resp := some (.write .okay) } ∧
    (s.serve (busWrite 0x004#12 v)).irq = false

/-- R269: the acknowledge clears exactly the flags written 1, in either phase. -/
def Obligations.AcknowledgeClearsTheFlagsWrittenOne : Prop :=
  ∀ (s : State) (v : Word),
    s.serve (busWrite 0x008#12 v) =
      { s with
        done := if v.getLsbD 1 then false else s.done, err := if v.getLsbD 2 then false else s.err,
        ovr := if v.getLsbD 3 then false else s.ovr, resp := some (.write .okay) }

/-- R270: a CTRL write without soft reset sets IE to bit 0, in either phase. -/
def Obligations.CtrlWriteSetsIe : Prop :=
  ∀ (s : State) (v : Word), v.getLsbD 1 = false →
    s.serve (busWrite 0x004#12 v) = { s with ie := v.getLsbD 0, resp := some (.write .okay) }

/-- R271: of an access and the completion in one cycle the access takes effect first. -/
def Obligations.AccessBeforeCompletionInOneCycle : Prop :=
  ∀ (s : State) (v : Word) (rest : List Event), s.phase = .busy →
    (s.pending = .access (busWrite 0x008#12 v) :: .engine :: rest →
      ∃ t, core.run 2 s = .next t ∧ t.phase = .idle ∧ t.done = true ∧ (t.err = true ↔ t.errcode ≠ .ok)) ∧
    (∀ a ∈ operandOffsets, s.pending = .access (busWrite a v) :: .engine :: rest →
      ∃ t, core.run 2 s = .next t ∧ t.ops = s.ops ∧ t.ovr = true ∧ t.phase = .idle ∧ t.done = true) ∧
    (v.getLsbD 1 = true → s.pending = .access (busWrite 0x004#12 v) :: .engine :: rest →
      core.run 2 s = .next { State.resetWith s.maxLen with pending := rest, resp := some (.write .okay) })

/-- R263, R264, R271: whatever accesses come between acceptance and completion, to the window or from a bus master, but for
a soft reset, the completion gives the code and the OUT cells of the state at acceptance. -/
def Obligations.ResultIsThatOfTheAcceptedState : Prop :=
  ∀ (s : State) (w : Word) (evs rest : List Event), s.phase = .idle →
    (∀ e ∈ evs, e ≠ .engine ∧ resets e = false) →
    s.pending = .access (busWrite 0x00C#12 w) :: (evs ++ .engine :: rest) →
    ∃ t u, core.run (evs.length + 2) s = .next t ∧ completion (s.accept w) = .next u ∧
      t.ops = s.ops ∧ t.outBuf = u.outBuf ∧ t.errcode = u.errcode ∧ t.err = u.err ∧ t.done = true ∧ t.phase = .idle ∧
      t.cur = w ∧ t.pending = rest

/-- R272: an accepted command completes within the steps still pending and one more, unless a reset comes first. The bound
is the model's choice (log entry 2). -/
def Obligations.AcceptedCommandCompletes : Prop :=
  ∀ s : State, s.phase = .busy → (∀ e ∈ s.pending, resets e = false) →
    ∃ k t, k ≤ s.pending.length + 1 ∧ core.run k s = .next t ∧ t.phase = .idle ∧ t.done = true

/-! ### The bus -/

/-- R82: an access that is not 32 bits wide, not at a multiple of 4, or a write without all four strobes answers SLVERR
(data 0 on a read) and changes nothing. Every other access answers OKAY. -/
def Obligations.OnlyAlignedWholeWordsAreServed : Prop :=
  ∀ (s : State) (a : Access),
    ((a.size ≠ .word ∨ a.offset.toNat % 4 ≠ 0 ∨ ∃ strb v, a.op = .write strb v ∧ strb ≠ 0b1111#4) →
      (a.op = .read → s.serve a = { s with resp := some (.read .slverr 0) }) ∧
      (∀ strb v, a.op = .write strb v → s.serve a = { s with resp := some (.write .slverr) })) ∧
    (a.size = .word → a.offset.toNat % 4 = 0 →
      (a.op = .read → ∃ v, (s.serve a).resp = some (.read .okay v)) ∧
      (∀ v, a.op = .write 0b1111#4 v → (s.serve a).resp = some (.write .okay)))

/-- R84: a read changes no state but the answer its master gets. -/
def Obligations.ReadsHaveNoSideEffects : Prop :=
  ∀ (s : State) (a : Access), a.op = .read → ∃ r, s.serve a = { s with resp := some r }

/-- R32 to R52, R83, R266: what every register and buffer cell reads as, in either phase. -/
def Obligations.RegisterMapReads : Prop :=
  ∀ s : State, s.maxLen ≤ 256 →
    reads s 0x000#12 0x46465801#32 ∧ reads s 0x004#12 (if s.ie then 1#32 else 0#32) ∧ reads s 0x008#12 s.statusWord ∧
    reads s 0x00C#12 0#32 ∧ reads s 0x010#12 s.ops.radix ∧ reads s 0x014#12 s.ops.rounds ∧ reads s 0x018#12 s.ops.len ∧
    reads s 0x01C#12 s.ops.ridx ∧ reads s 0x020#12 s.ops.olen ∧ reads s 0x024#12 s.ops.alen ∧
    reads s 0x028#12 s.ops.blen ∧ reads s 0x02C#12 s.ops.keylen ∧
    reads s 0x030#12 (if s.ops.radix.toNat < 2 then 0#32 else BitVec.ofNat 32 (cph s.ops.radix.toNat)) ∧
    (∀ w < 16, reads s (keyOffset w) 0#32) ∧ (∀ k < s.maxLen, reads s (inOffset k) (s.ops.inBuf.read k)) ∧
    (∀ k < s.maxLen, reads s (outOffset k) (s.outBuf.read k)) ∧
    ∀ a, reservedOffset s.maxLen a → reads s (BitVec.ofNat 12 a) 0#32

/-- R35 to R39: the bits of STATUS, the reserved ones 0, and the numbers of the codes (R290). -/
def Obligations.StatusWordLayout : Prop :=
  ([ErrCode.ok, .opcode, .keylen, .radix, .rounds, .length, .digit, .encoding].map ErrCode.number = [0, 1, 2, 3, 4, 5, 6, 7]) ∧
  ∀ s : State,
    s.statusWord.getLsbD 0 = decide (s.phase = .busy) ∧ s.statusWord.getLsbD 1 = s.done ∧
    s.statusWord.getLsbD 2 = s.err ∧ s.statusWord.getLsbD 3 = s.ovr ∧ s.statusWord.extractLsb' 4 4 = 0#4 ∧
    (s.statusWord.extractLsb' 8 4).toNat = s.errcode.number ∧ s.statusWord.extractLsb' 12 20 = 0#20

/-- R45, R86: the key bytes are the bytes of the KEY words, little-endian, and only the first KEYLEN of them are used. -/
def Obligations.KeyBytesAreLittleEndian : Prop :=
  ∀ (o : Operands), o.keyStore.length = 64 ∧ o.keyBytes = o.keyStore.take o.keylen.toNat ∧
    ∀ w (h : w < 16), ∀ b < 4, o.keyStore[4 * w + b]? = some ((o.key[w]).extractLsb' (8 * b) 8)

/-- R45, R337: no sequence of host accesses reads the key back (no completion among them, which may show the key's effect
in OUT). Two states that differ only in KEY answer every access alike. -/
def Obligations.KeyIsNeverReadBack : Prop :=
  ∀ (s : State) (key : Vector Word 16) (accs : List Access),
    (accs.foldl State.serve { s with ops := { s.ops with key := key } }).resp = (accs.foldl State.serve s).resp

/-- R80: a bus access reaches the window exactly at the addresses `BASE .. BASE + 0xFFF`, whatever BASE is (a free value,
log entry 3). That an access elsewhere changes nothing is the model's choice (log entry 14). -/
def Obligations.WindowIsFourKibibytesAtBase : Prop :=
  Config.base % 4096 = 0 ∧
  (∀ (s : State) (k : Nat) (size : AccessSize) (op : BusOp), k < 4096 →
    s.serveMaster (Config.base + k) size op = s.serve { offset := BitVec.ofNat 12 k, size := size, op := op }) ∧
  ∀ (s : State) (addr : Nat) (size : AccessSize) (op : BusOp), addr < Config.base ∨ Config.base + 4096 ≤ addr →
    s.serveMaster addr size op = s

/-! ### Interrupt and reset -/

/-- R297: the interrupt output is IE and DONE. It follows IE at a completion, and an acknowledge of DONE, an acceptance, a
reset or IE = 0 takes it away, the last leaving DONE. -/
def Obligations.IrqIsEnableAndDone : Prop :=
  ∀ s : State, s.irq = (s.ie && s.done) ∧ (∀ t, completion s = .next t → t.irq = s.ie) ∧
    (∀ v : Word, v.getLsbD 1 = true → (s.serve (busWrite 0x008#12 v)).irq = false) ∧
    (∀ w : Word, s.phase = .idle → (s.serve (busWrite 0x00C#12 w)).irq = false) ∧
    s.resetDevice.irq = false ∧
    ∀ v : Word, v.getLsbD 1 = false → v.getLsbD 0 = false →
      (s.serve (busWrite 0x004#12 v)).irq = false ∧ (s.serve (busWrite 0x004#12 v)).done = s.done

/-- R330: the state after reset, register by register. -/
def Obligations.ResetState : Prop :=
  let s := State.reset
  reads s 0x000#12 0x46465801#32 ∧ s.ie = false ∧ s.phase = .idle ∧ s.done = false ∧ s.err = false ∧ s.ovr = false ∧
  s.errcode = .ok ∧ s.ops.radix = 10#32 ∧ s.ops.rounds = 10#32 ∧ s.ops.len = 0#32 ∧ s.ops.ridx = 0#32 ∧
  s.ops.olen = 0#32 ∧ s.ops.alen = 0#32 ∧ s.ops.blen = 0#32 ∧ s.ops.keylen = 0#32 ∧ reads s 0x030#12 48#32 ∧
  s.ops.key = Vector.replicate 16 0#32 ∧ (∀ k, s.ops.inBuf.read k = 0#32) ∧ (∀ k, s.outBuf.read k = 0#32) ∧
  s.cur = 0#32 ∧ s.irq = false ∧
  ∀ (t : State) (rest : List Event), t.pending = .hardReset :: rest →
    step t = .next { State.resetWith t.maxLen with pending := rest }

/-! ### Invariants -/

/-- The invariant holds at reset (R330). -/
def Obligations.ResetSatisfiesTheInvariant : Prop := State.reset.Inv

/-- Every step keeps the invariant: a legal MAX_LEN, the buffers in canonical form below it, a consistent STATUS (R8, R9,
R37, R39). -/
def Obligations.StepKeepsTheInvariant : Prop := ∀ s t : State, s.Inv → step s = .next t → t.Inv ∧ t.maxLen = s.maxLen

/-! ### The host program notation -/

/-- R119: the worked encoding of `LDKEY "secret-key"` and of `CMD ENC`. -/
def Obligations.WorkedEncodingOfLdkey : Prop :=
  (expandLdkey [0x73, 0x65, 0x63, 0x72, 0x65, 0x74, 0x2d, 0x6b, 0x65, 0x79] =
    [.write (.key 0) (.lit 0x72636573#32), .write (.key 1) (.lit 0x6b2d7465#32), .write (.key 2) (.lit 0x00007965#32),
      .write (.reg .keylen) (.lit 10#32)]) ∧
  [Target.key 0, .key 1, .key 2, .reg .keylen].map targetOffset = [0x040#12, 0x044#12, 0x048#12, 0x02C#12] ∧
  expandCmd .enc = [.write (.reg .cmd) (.mnemonic .enc)] ∧ targetOffset (.reg .cmd) = 0x00C#12 ∧ encode .enc = 1#32

/-- R45, R118, R170: running the expansion of LDKEY on an IDLE machine makes the bytes the HMAC key. -/
def Obligations.LdkeyLoadsTheKey : Prop :=
  ∀ (s : State) (key : List Byte), s.phase = .idle → key.length ≤ 64 →
    ∃ b, Bench.run (List.replicate (expandLdkey key).length true)
        { lines := expandLdkey key, line := 0, names := [], log := [], dev := s } = .next b ∧
      b.dev.ops.keyBytes = key ∧ b.dev.phase = .idle
end

