-- ==== Sys2Proof/Laws/Memory.lean ====
section
/-! SUPPORT. The laws of the buffers: read after write, and the canonical form every operation keeps. -/

namespace Sys2Proof.Machine

namespace Memory

@[simp] theorem read_nil (k : Nat) : Memory.read [] k = 0#32 := rfl

/-- In a canonical buffer whose first index is above `k`, cell `k` is not listed. -/
theorem read_eq_zero_of_lt {m : Memory} {k : Nat} (h : ∀ c ∈ m, k < c.1) : m.read k = 0#32 := by
  induction m with
  | nil => rfl
  | cons c m ih =>
    obtain ⟨a, x⟩ := c
    have ha : k < a := h (a, x) (by simp)
    have hne : a ≠ k := by omega
    simp only [Memory.read, if_neg hne]
    exact ih fun c hc => h c (by simp [hc])

theorem rising_tail {a : Nat} {x : Word} {m : Memory}
    (h : ((a, x) :: m).Pairwise (fun p q : Nat × Word => p.1 < q.1)) : ∀ c ∈ m, a < c.1 :=
  fun c hc => (List.pairwise_cons.mp h).1 c hc

/-- A read after a write to the same cell gives the value written. -/
theorem read_write_same {m : Memory} (h : m.Pairwise (fun p q => p.1 < q.1)) (k : Nat) (v : Word) :
    (m.write k v).read k = v := by
  induction m with
  | nil => by_cases hv : v = 0#32 <;> simp [Memory.write, Memory.read, hv]
  | cons c m ih =>
    obtain ⟨a, x⟩ := c
    have htail := rising_tail h
    have ht := (List.pairwise_cons.mp h).2
    by_cases h1 : k < a
    · by_cases hv : v = 0#32
      · have hne : a ≠ k := by omega
        simp only [Memory.write, if_pos h1, hv, ↓reduceIte, Memory.read, if_neg hne]
        exact read_eq_zero_of_lt fun c hc => by have := htail c hc; omega
      · simp [Memory.write, h1, hv, Memory.read]
    · by_cases h2 : k = a
      · subst h2
        by_cases hv : v = 0#32
        · simp only [Memory.write, if_neg h1, hv, ↓reduceIte]
          exact read_eq_zero_of_lt htail
        · simp [Memory.write, hv, Memory.read]
      · have hne : a ≠ k := fun e => h2 e.symm
        simp only [Memory.write, if_neg h1, if_neg h2, Memory.read, if_neg hne]
        exact ih ht

/-- A write leaves every other cell alone. -/
theorem read_write_other {m : Memory} (h : m.Pairwise (fun p q => p.1 < q.1)) {k j : Nat} (v : Word) (hj : j ≠ k) :
    (m.write k v).read j = m.read j := by
  induction m with
  | nil => by_cases hv : v = 0#32 <;> simp [Memory.write, Memory.read, hv, hj.symm]
  | cons c m ih =>
    obtain ⟨a, x⟩ := c
    have htail := rising_tail h
    have ht := (List.pairwise_cons.mp h).2
    by_cases h1 : k < a
    · by_cases hv : v = 0#32 <;> simp [Memory.write, h1, hv, Memory.read, hj.symm]
    · by_cases h2 : k = a
      · subst h2
        by_cases hv : v = 0#32
        · simp [Memory.write, hv, Memory.read, hj.symm]
        · simp [Memory.write, hv, Memory.read, hj.symm]
      · simp only [Memory.write, if_neg h1, if_neg h2, Memory.read]
        rw [ih ht]

/-- What a write can list: the old entries, and the one written if it is not 0. -/
theorem mem_write {m : Memory} {k : Nat} {v : Word} {c : Nat × Word} (hc : c ∈ m.write k v) :
    c ∈ m ∨ (c = (k, v) ∧ v ≠ 0#32) := by
  induction m with
  | nil =>
    by_cases hv : v = 0#32
    · simp [Memory.write, hv] at hc
    · simp [Memory.write, hv] at hc; exact .inr ⟨hc, hv⟩
  | cons d m ih =>
    obtain ⟨a, x⟩ := d
    by_cases h1 : k < a
    · by_cases hv : v = 0#32
      · simp only [Memory.write, if_pos h1, hv, ↓reduceIte] at hc; exact .inl hc
      · simp only [Memory.write, if_pos h1, if_neg hv, List.mem_cons] at hc
        rcases hc with rfl | hc
        · exact .inr ⟨rfl, hv⟩
        · exact .inl (by simpa using hc)
    · by_cases h2 : k = a
      · by_cases hv : v = 0#32
        · simp only [Memory.write, if_neg h1, if_pos h2, hv, ↓reduceIte] at hc
          exact .inl (by simp [hc])
        · simp only [Memory.write, if_neg h1, if_pos h2, if_neg hv, List.mem_cons] at hc
          rcases hc with rfl | hc
          · exact .inr ⟨rfl, hv⟩
          · exact .inl (by simp [hc])
      · simp only [Memory.write, if_neg h1, if_neg h2, List.mem_cons] at hc
        rcases hc with rfl | hc
        · exact .inl (by simp)
        · rcases ih hc with hc | hc
          · exact .inl (by simp [hc])
          · exact .inr hc

/-- A write keeps the indexes strictly rising. -/
theorem write_rising {m : Memory} (h : m.Pairwise (fun p q => p.1 < q.1)) (k : Nat) (v : Word) :
    (m.write k v).Pairwise (fun p q => p.1 < q.1) := by
  induction m with
  | nil => by_cases hv : v = 0#32 <;> simp [Memory.write, hv]
  | cons c m ih =>
    obtain ⟨a, x⟩ := c
    have htail := rising_tail h
    have ht := (List.pairwise_cons.mp h).2
    by_cases h1 : k < a
    · by_cases hv : v = 0#32
      · simp only [Memory.write, if_pos h1, hv, ↓reduceIte]; exact h
      · simp only [Memory.write, if_pos h1, if_neg hv]
        refine List.pairwise_cons.mpr ⟨fun c hc => ?_, h⟩
        rcases List.mem_cons.mp hc with rfl | hc
        · exact h1
        · exact lt_trans h1 (htail c hc)
    · by_cases h2 : k = a
      · subst h2
        by_cases hv : v = 0#32
        · simp only [Memory.write, if_neg h1, hv, ↓reduceIte]; exact ht
        · simp only [Memory.write, if_neg h1, ↓reduceIte, if_neg hv]
          exact List.pairwise_cons.mpr ⟨fun c hc => htail c hc, ht⟩
      · simp only [Memory.write, if_neg h1, if_neg h2]
        refine List.pairwise_cons.mpr ⟨fun c hc => ?_, ih ht⟩
        rcases mem_write hc with hc | ⟨rfl, -⟩
        · exact htail c hc
        · show a < k; omega

/-- A write to a cell of the buffer keeps its canonical form. -/
theorem write_wf {m : Memory} {bound k : Nat} (h : m.wf bound) (hk : k < bound) (v : Word) : (m.write k v).wf bound := by
  refine ⟨write_rising h.1 k v, fun c hc => ?_⟩
  rcases mem_write hc with hc | ⟨rfl, hv⟩
  · exact h.2 c hc
  · exact ⟨hk, hv⟩

theorem nil_wf (bound : Nat) : Memory.wf bound [] := ⟨List.Pairwise.nil, by simp⟩

/-- Equal contents are equal data: two canonical buffers that read alike are one list. -/
theorem ext_of_read {m n : Memory} {b c : Nat} (hm : m.wf b) (hn : n.wf c) (h : ∀ k, m.read k = n.read k) : m = n := by
  induction m generalizing n with
  | nil =>
    cases n with
    | nil => rfl
    | cons d n =>
      obtain ⟨a, x⟩ := d
      have h0 := h a
      have hx := (hn.2 (a, x) (by simp)).2
      simp [Memory.read] at h0
      exact absurd h0.symm hx
  | cons d m ih =>
    obtain ⟨a, x⟩ := d
    have hx := (hm.2 (a, x) (by simp)).2
    have hta := rising_tail hm.1
    cases n with
    | nil =>
      have h0 := h a
      simp [Memory.read] at h0
      exact absurd h0 hx
    | cons e n =>
      obtain ⟨a', x'⟩ := e
      have hx' := (hn.2 (a', x') (by simp)).2
      have htn := rising_tail hn.1
      have haa : a = a' := by
        rcases lt_trichotomy a a' with hlt | heq | hgt
        · have h0 := h a
          have hz : Memory.read ((a', x') :: n) a = 0#32 := read_eq_zero_of_lt fun c hc => by
            rcases List.mem_cons.mp hc with rfl | hc
            · exact hlt
            · exact lt_trans hlt (htn c hc)
          rw [hz] at h0
          simp [Memory.read] at h0
          exact absurd h0 hx
        · exact heq
        · have h0 := h a'
          have hz : Memory.read ((a, x) :: m) a' = 0#32 := read_eq_zero_of_lt fun c hc => by
            rcases List.mem_cons.mp hc with rfl | hc
            · exact hgt
            · exact lt_trans hgt (hta c hc)
          rw [hz] at h0
          simp [Memory.read] at h0
          exact absurd h0.symm hx'
      subst haa
      have hxx : x = x' := by simpa [Memory.read] using h a
      subst hxx
      have hrest : m = n := by
        refine ih ⟨(List.pairwise_cons.mp hm.1).2, fun c hc => hm.2 c (by simp [hc])⟩
          ⟨(List.pairwise_cons.mp hn.1).2, fun c hc => hn.2 c (by simp [hc])⟩ fun k => ?_
        by_cases hk : a = k
        · subst hk
          rw [read_eq_zero_of_lt hta, read_eq_zero_of_lt htn]
        · simpa [Memory.read, hk] using h k
      rw [hrest]

@[simp] theorem writeDigits_nil (m : Memory) (k : Nat) : m.writeDigits k [] = m := rfl

theorem writeDigits_rising {m : Memory} (h : m.Pairwise (fun p q => p.1 < q.1)) (k : Nat) (ds : Digits) :
    (m.writeDigits k ds).Pairwise (fun p q => p.1 < q.1) := by
  induction ds generalizing m k with
  | nil => exact h
  | cons d ds ih => exact ih (write_rising h _ _) _

/-- Writing digits inside the buffer keeps its canonical form. -/
theorem writeDigits_wf {m : Memory} {bound k : Nat} (h : m.wf bound) (ds : Digits) (hk : k + ds.length ≤ bound) :
    (m.writeDigits k ds).wf bound := by
  induction ds generalizing m k with
  | nil => exact h
  | cons d ds ih =>
    simp only [List.length_cons] at hk
    exact ih (write_wf h (by omega) _) (by omega)

/-- Writing digits leaves every other cell alone. -/
theorem read_writeDigits_other {m : Memory} (h : m.Pairwise (fun p q => p.1 < q.1)) {k j : Nat} (ds : Digits)
    (hj : j < k ∨ k + ds.length ≤ j) : (m.writeDigits k ds).read j = m.read j := by
  induction ds generalizing m k with
  | nil => rfl
  | cons d ds ih =>
    simp only [List.length_cons] at hj
    simp only [Memory.writeDigits]
    rw [ih (write_rising h _ _) (by omega), read_write_other h _ (by omega)]

/-- Writing digits puts digit `j` into cell `k + j`. -/
theorem read_writeDigits_same {m : Memory} (h : m.Pairwise (fun p q => p.1 < q.1)) (k : Nat) (ds : Digits) {j : Nat}
    (hj : j < ds.length) : (m.writeDigits k ds).read (k + j) = BitVec.ofNat 32 ds[j] := by
  induction ds generalizing m k j with
  | nil => simp at hj
  | cons d ds ih =>
    simp only [Memory.writeDigits]
    cases j with
    | zero =>
      rw [read_writeDigits_other (write_rising h _ _) _ (by omega), Nat.add_zero, read_write_same h]
      rfl
    | succ j =>
      have hj' : j < ds.length := by simpa using hj
      have := ih (write_rising h k (BitVec.ofNat 32 d)) (k + 1) hj'
      rw [show k + (j + 1) = k + 1 + j by omega, this]
      rfl

end Memory

end Sys2Proof.Machine
end

