-- ==== Sys2Proof/Laws/State.lean ====
section
/-! SUPPORT. One lemma per field per update of State, each true by rfl, so that no later proof unfolds a record update. -/

namespace Sys2Proof.Machine

namespace State

@[simp] theorem accept_maxLen (s : State) (w : Word) : (s.accept w).maxLen = s.maxLen := rfl
@[simp] theorem accept_ops (s : State) (w : Word) : (s.accept w).ops = s.ops := rfl
@[simp] theorem accept_ie (s : State) (w : Word) : (s.accept w).ie = s.ie := rfl
@[simp] theorem accept_done (s : State) (w : Word) : (s.accept w).done = false := rfl
@[simp] theorem accept_err (s : State) (w : Word) : (s.accept w).err = false := rfl
@[simp] theorem accept_ovr (s : State) (w : Word) : (s.accept w).ovr = s.ovr := rfl
@[simp] theorem accept_errcode (s : State) (w : Word) : (s.accept w).errcode = .ok := rfl
@[simp] theorem accept_outBuf (s : State) (w : Word) : (s.accept w).outBuf = s.outBuf := rfl
@[simp] theorem accept_phase (s : State) (w : Word) : (s.accept w).phase = .busy := rfl
@[simp] theorem accept_cur (s : State) (w : Word) : (s.accept w).cur = w := rfl
@[simp] theorem accept_pending (s : State) (w : Word) : (s.accept w).pending = s.pending := rfl
@[simp] theorem accept_resp (s : State) (w : Word) : (s.accept w).resp = s.resp := rfl

@[simp] theorem completeError_maxLen (s : State) (c : ErrCode) : (s.completeError c).maxLen = s.maxLen := rfl
@[simp] theorem completeError_ops (s : State) (c : ErrCode) : (s.completeError c).ops = s.ops := rfl
@[simp] theorem completeError_ie (s : State) (c : ErrCode) : (s.completeError c).ie = s.ie := rfl
@[simp] theorem completeError_done (s : State) (c : ErrCode) : (s.completeError c).done = true := rfl
@[simp] theorem completeError_err (s : State) (c : ErrCode) : (s.completeError c).err = decide (c ≠ .ok) := rfl
@[simp] theorem completeError_ovr (s : State) (c : ErrCode) : (s.completeError c).ovr = s.ovr := rfl
@[simp] theorem completeError_errcode (s : State) (c : ErrCode) : (s.completeError c).errcode = c := rfl
@[simp] theorem completeError_outBuf (s : State) (c : ErrCode) : (s.completeError c).outBuf = s.outBuf := rfl
@[simp] theorem completeError_phase (s : State) (c : ErrCode) : (s.completeError c).phase = .idle := rfl
@[simp] theorem completeError_cur (s : State) (c : ErrCode) : (s.completeError c).cur = s.cur := rfl
@[simp] theorem completeError_pending (s : State) (c : ErrCode) : (s.completeError c).pending = s.pending := rfl
@[simp] theorem completeError_resp (s : State) (c : ErrCode) : (s.completeError c).resp = s.resp := rfl

@[simp] theorem completeOk_maxLen (s : State) (u : Digits) : (s.completeOk u).maxLen = s.maxLen := rfl
@[simp] theorem completeOk_ops (s : State) (u : Digits) : (s.completeOk u).ops = s.ops := rfl
@[simp] theorem completeOk_ie (s : State) (u : Digits) : (s.completeOk u).ie = s.ie := rfl
@[simp] theorem completeOk_done (s : State) (u : Digits) : (s.completeOk u).done = true := rfl
@[simp] theorem completeOk_err (s : State) (u : Digits) : (s.completeOk u).err = false := rfl
@[simp] theorem completeOk_ovr (s : State) (u : Digits) : (s.completeOk u).ovr = s.ovr := rfl
@[simp] theorem completeOk_errcode (s : State) (u : Digits) : (s.completeOk u).errcode = .ok := rfl
@[simp] theorem completeOk_outBuf (s : State) (u : Digits) : (s.completeOk u).outBuf = s.outBuf.writeDigits 0 u := rfl
@[simp] theorem completeOk_phase (s : State) (u : Digits) : (s.completeOk u).phase = .idle := rfl
@[simp] theorem completeOk_cur (s : State) (u : Digits) : (s.completeOk u).cur = s.cur := rfl
@[simp] theorem completeOk_pending (s : State) (u : Digits) : (s.completeOk u).pending = s.pending := rfl
@[simp] theorem completeOk_resp (s : State) (u : Digits) : (s.completeOk u).resp = s.resp := rfl

@[simp] theorem acknowledge_maxLen (s : State) (v : Word) : (s.acknowledge v).maxLen = s.maxLen := rfl
@[simp] theorem acknowledge_ops (s : State) (v : Word) : (s.acknowledge v).ops = s.ops := rfl
@[simp] theorem acknowledge_ie (s : State) (v : Word) : (s.acknowledge v).ie = s.ie := rfl
@[simp] theorem acknowledge_done (s : State) (v : Word) : (s.acknowledge v).done = (s.done && !bitOf v 1) := rfl
@[simp] theorem acknowledge_err (s : State) (v : Word) : (s.acknowledge v).err = (s.err && !bitOf v 2) := rfl
@[simp] theorem acknowledge_ovr (s : State) (v : Word) : (s.acknowledge v).ovr = (s.ovr && !bitOf v 3) := rfl
@[simp] theorem acknowledge_errcode (s : State) (v : Word) : (s.acknowledge v).errcode = s.errcode := rfl
@[simp] theorem acknowledge_outBuf (s : State) (v : Word) : (s.acknowledge v).outBuf = s.outBuf := rfl
@[simp] theorem acknowledge_phase (s : State) (v : Word) : (s.acknowledge v).phase = s.phase := rfl
@[simp] theorem acknowledge_cur (s : State) (v : Word) : (s.acknowledge v).cur = s.cur := rfl
@[simp] theorem acknowledge_pending (s : State) (v : Word) : (s.acknowledge v).pending = s.pending := rfl
@[simp] theorem acknowledge_resp (s : State) (v : Word) : (s.acknowledge v).resp = s.resp := rfl

@[simp] theorem overrun_maxLen (s : State) : (s.overrun).maxLen = s.maxLen := rfl
@[simp] theorem overrun_ops (s : State) : (s.overrun).ops = s.ops := rfl
@[simp] theorem overrun_ie (s : State) : (s.overrun).ie = s.ie := rfl
@[simp] theorem overrun_done (s : State) : (s.overrun).done = s.done := rfl
@[simp] theorem overrun_err (s : State) : (s.overrun).err = s.err := rfl
@[simp] theorem overrun_ovr (s : State) : (s.overrun).ovr = true := rfl
@[simp] theorem overrun_errcode (s : State) : (s.overrun).errcode = s.errcode := rfl
@[simp] theorem overrun_outBuf (s : State) : (s.overrun).outBuf = s.outBuf := rfl
@[simp] theorem overrun_phase (s : State) : (s.overrun).phase = s.phase := rfl
@[simp] theorem overrun_cur (s : State) : (s.overrun).cur = s.cur := rfl
@[simp] theorem overrun_pending (s : State) : (s.overrun).pending = s.pending := rfl
@[simp] theorem overrun_resp (s : State) : (s.overrun).resp = s.resp := rfl

@[simp] theorem resetDevice_maxLen (s : State) : (s.resetDevice).maxLen = s.maxLen := rfl
@[simp] theorem resetDevice_ops (s : State) : (s.resetDevice).ops = Operands.reset := rfl
@[simp] theorem resetDevice_ie (s : State) : (s.resetDevice).ie = false := rfl
@[simp] theorem resetDevice_done (s : State) : (s.resetDevice).done = false := rfl
@[simp] theorem resetDevice_err (s : State) : (s.resetDevice).err = false := rfl
@[simp] theorem resetDevice_ovr (s : State) : (s.resetDevice).ovr = false := rfl
@[simp] theorem resetDevice_errcode (s : State) : (s.resetDevice).errcode = .ok := rfl
@[simp] theorem resetDevice_outBuf (s : State) : (s.resetDevice).outBuf = [] := rfl
@[simp] theorem resetDevice_phase (s : State) : (s.resetDevice).phase = .idle := rfl
@[simp] theorem resetDevice_cur (s : State) : (s.resetDevice).cur = 0 := rfl
@[simp] theorem resetDevice_pending (s : State) : (s.resetDevice).pending = s.pending := rfl
@[simp] theorem resetDevice_resp (s : State) : (s.resetDevice).resp = none := rfl

@[simp] theorem answer_maxLen (s : State) (r : BusAnswer) : (s.answer r).maxLen = s.maxLen := rfl
@[simp] theorem answer_ops (s : State) (r : BusAnswer) : (s.answer r).ops = s.ops := rfl
@[simp] theorem answer_ie (s : State) (r : BusAnswer) : (s.answer r).ie = s.ie := rfl
@[simp] theorem answer_done (s : State) (r : BusAnswer) : (s.answer r).done = s.done := rfl
@[simp] theorem answer_err (s : State) (r : BusAnswer) : (s.answer r).err = s.err := rfl
@[simp] theorem answer_ovr (s : State) (r : BusAnswer) : (s.answer r).ovr = s.ovr := rfl
@[simp] theorem answer_errcode (s : State) (r : BusAnswer) : (s.answer r).errcode = s.errcode := rfl
@[simp] theorem answer_outBuf (s : State) (r : BusAnswer) : (s.answer r).outBuf = s.outBuf := rfl
@[simp] theorem answer_phase (s : State) (r : BusAnswer) : (s.answer r).phase = s.phase := rfl
@[simp] theorem answer_cur (s : State) (r : BusAnswer) : (s.answer r).cur = s.cur := rfl
@[simp] theorem answer_pending (s : State) (r : BusAnswer) : (s.answer r).pending = s.pending := rfl
@[simp] theorem answer_resp (s : State) (r : BusAnswer) : (s.answer r).resp = some r := rfl

@[simp] theorem popEvent_maxLen (s : State) : (s.popEvent).maxLen = s.maxLen := rfl
@[simp] theorem popEvent_ops (s : State) : (s.popEvent).ops = s.ops := rfl
@[simp] theorem popEvent_ie (s : State) : (s.popEvent).ie = s.ie := rfl
@[simp] theorem popEvent_done (s : State) : (s.popEvent).done = s.done := rfl
@[simp] theorem popEvent_err (s : State) : (s.popEvent).err = s.err := rfl
@[simp] theorem popEvent_ovr (s : State) : (s.popEvent).ovr = s.ovr := rfl
@[simp] theorem popEvent_errcode (s : State) : (s.popEvent).errcode = s.errcode := rfl
@[simp] theorem popEvent_outBuf (s : State) : (s.popEvent).outBuf = s.outBuf := rfl
@[simp] theorem popEvent_phase (s : State) : (s.popEvent).phase = s.phase := rfl
@[simp] theorem popEvent_cur (s : State) : (s.popEvent).cur = s.cur := rfl
@[simp] theorem popEvent_pending (s : State) : (s.popEvent).pending = s.pending.tail := rfl
@[simp] theorem popEvent_resp (s : State) : (s.popEvent).resp = s.resp := rfl

@[simp] theorem placeCommand_maxLen (s : State) (w : Word) : (s.placeCommand w).maxLen = s.maxLen := rfl
@[simp] theorem placeCommand_ops (s : State) (w : Word) : (s.placeCommand w).ops = s.ops := rfl
@[simp] theorem placeCommand_ie (s : State) (w : Word) : (s.placeCommand w).ie = s.ie := rfl
@[simp] theorem placeCommand_done (s : State) (w : Word) : (s.placeCommand w).done = false := rfl
@[simp] theorem placeCommand_err (s : State) (w : Word) : (s.placeCommand w).err = false := rfl
@[simp] theorem placeCommand_ovr (s : State) (w : Word) : (s.placeCommand w).ovr = s.ovr := rfl
@[simp] theorem placeCommand_errcode (s : State) (w : Word) : (s.placeCommand w).errcode = .ok := rfl
@[simp] theorem placeCommand_outBuf (s : State) (w : Word) : (s.placeCommand w).outBuf = s.outBuf := rfl
@[simp] theorem placeCommand_phase (s : State) (w : Word) : (s.placeCommand w).phase = .busy := rfl
@[simp] theorem placeCommand_cur (s : State) (w : Word) : (s.placeCommand w).cur = w := rfl
@[simp] theorem placeCommand_pending (s : State) (w : Word) : (s.placeCommand w).pending = .engine :: s.pending := rfl
@[simp] theorem placeCommand_resp (s : State) (w : Word) : (s.placeCommand w).resp = s.resp := rfl

@[simp] theorem complete_maxLen (s : State) (r : Result) : (s.complete r).maxLen = s.maxLen := by cases r <;> rfl
@[simp] theorem complete_ops (s : State) (r : Result) : (s.complete r).ops = s.ops := by cases r <;> rfl
@[simp] theorem complete_ie (s : State) (r : Result) : (s.complete r).ie = s.ie := by cases r <;> rfl
@[simp] theorem complete_ovr (s : State) (r : Result) : (s.complete r).ovr = s.ovr := by cases r <;> rfl
@[simp] theorem complete_cur (s : State) (r : Result) : (s.complete r).cur = s.cur := by cases r <;> rfl
@[simp] theorem complete_pending (s : State) (r : Result) : (s.complete r).pending = s.pending := by cases r <;> rfl
@[simp] theorem complete_resp (s : State) (r : Result) : (s.complete r).resp = s.resp := by cases r <;> rfl

@[simp] theorem complete_phase (s : State) (r : Result) : (s.complete r).phase = .idle := by cases r <;> rfl
@[simp] theorem complete_done (s : State) (r : Result) : (s.complete r).done = true := by cases r <;> rfl
@[simp] theorem complete_ok (s : State) (u : Digits) : s.complete (.ok u) = s.completeOk u := rfl
@[simp] theorem complete_error (s : State) (c : ErrCode) : s.complete (.error c) = s.completeError c := rfl

@[simp] theorem command_eq (s : State) : s.command = decode s.cur := rfl
@[simp] theorem irq_eq (s : State) : s.irq = (s.ie && s.done) := rfl

end State

end Sys2Proof.Machine
end

