-- ==== Sys2Proof/Laws/Bus.lean ====
section
/-! SUPPORT. What a bus access can do (spec/20_memory.md rules R82 to R85, spec/44_control.md rules R260 to R270), said
once, and the parts of the invariant it keeps. -/

namespace Sys2Proof.Machine

/-- What a write to a location can do, by the phase: nothing, an acknowledge, a soft reset, a change of IE, an
acceptance, an overrun, or a store to the operand registers, KEY or IN. -/
theorem writeLocation_cases (s : State) (l : Location) (v : Word) :
    (s.writeLocation l v = s ∧ (l = .id ∨ l = .cph ∨ l = .reserved ∨ ∃ k, l = .out k)) ∨
    (s.writeLocation l v = s.acknowledge v ∧ l = .status) ∨
    (s.writeLocation l v = s.resetDevice ∧ l = .ctrl ∧ bitOf v 1 = true) ∨
    (s.writeLocation l v = { s with ie := bitOf v 0 } ∧ l = .ctrl ∧ bitOf v 1 = false) ∨
    (s.writeLocation l v = s.accept v ∧ l = .cmd ∧ s.phase = .idle) ∨
    (s.writeLocation l v = s.overrun ∧ s.phase = .busy) ∨
    (s.phase = .idle ∧ ∃ o, s.writeLocation l v = { s with ops := o } ∧
      ((∃ r, l = .operand r ∧ o = s.ops.set r v) ∨ (∃ w, l = .key w ∧ o = s.ops.setKey w v) ∨
        ∃ k, l = .inp k ∧ o = s.ops.setCell k v)) := by
  cases l with
  | id => exact .inl ⟨rfl, .inl rfl⟩
  | cph => exact .inl ⟨rfl, .inr (.inl rfl)⟩
  | reserved => exact .inl ⟨rfl, .inr (.inr (.inl rfl))⟩
  | out k => exact .inl ⟨rfl, .inr (.inr (.inr ⟨k, rfl⟩))⟩
  | status => exact .inr (.inl ⟨rfl, rfl⟩)
  | ctrl =>
    simp only [State.writeLocation, State.writeCtrl]
    cases h : bitOf v 1 with
    | true => exact .inr (.inr (.inl (by simp)))
    | false => exact .inr (.inr (.inr (.inl (by simp))))
  | cmd =>
    simp only [State.writeLocation, State.writeCmd]
    cases h : s.phase with
    | idle => exact .inr (.inr (.inr (.inr (.inl (by simp)))))
    | busy => exact .inr (.inr (.inr (.inr (.inr (.inl ⟨rfl, rfl⟩)))))
  | operand r =>
    simp only [State.writeLocation, State.writeOps]
    cases h : s.phase with
    | idle => exact .inr (.inr (.inr (.inr (.inr (.inr ⟨rfl, _, rfl, .inl ⟨r, rfl, rfl⟩⟩)))))
    | busy => exact .inr (.inr (.inr (.inr (.inr (.inl ⟨rfl, rfl⟩)))))
  | key w =>
    simp only [State.writeLocation, State.writeOps]
    cases h : s.phase with
    | idle => exact .inr (.inr (.inr (.inr (.inr (.inr ⟨rfl, _, rfl, .inr (.inl ⟨w, rfl, rfl⟩)⟩)))))
    | busy => exact .inr (.inr (.inr (.inr (.inr (.inl ⟨rfl, rfl⟩)))))
  | inp k =>
    simp only [State.writeLocation, State.writeOps]
    cases h : s.phase with
    | idle => exact .inr (.inr (.inr (.inr (.inr (.inr ⟨rfl, _, rfl, .inr (.inr ⟨k, rfl, rfl⟩)⟩)))))
    | busy => exact .inr (.inr (.inr (.inr (.inr (.inl ⟨rfl, rfl⟩)))))

/-- What an access can do: answer only, or answer after the effect of a write to its location (R82, R84). -/
theorem serve_cases (s : State) (a : Access) :
    (∃ r, s.serve a = s.answer r) ∨
    (served a = true ∧ ∃ strb v, a.op = .write strb v ∧
      s.serve a = (s.writeLocation (s.locateAccess a) v).answer (.write .okay)) := by
  unfold State.serve
  cases hs : served a with
  | false =>
    simp only [Bool.false_eq_true, ↓reduceIte]
    cases a.op with
    | read => exact .inl ⟨_, rfl⟩
    | write strb v => exact .inl ⟨_, rfl⟩
  | true =>
    simp only [↓reduceIte]
    cases ho : a.op with
    | read => exact .inl ⟨_, rfl⟩
    | write strb v => exact .inr ⟨trivial, strb, v, rfl, rfl⟩

theorem locateLow_ne_inp (a k : Nat) : locateLow a ≠ .inp k := by
  fun_cases locateLow a <;> simp

theorem locateLow_ne_out (a k : Nat) : locateLow a ≠ .out k := by
  fun_cases locateLow a <;> simp

/-- An IN cell the map names lies in the buffer (R9, R83). -/
theorem locate_inp_lt {maxLen a k : Nat} (h : locate maxLen a = .inp k) : k < maxLen := by
  unfold locate at h
  split at h
  · exact absurd h (locateLow_ne_inp a k)
  split at h
  · split at h
    · rename_i hlt
      simp only [Location.inp.injEq] at h
      omega
    · simp at h
  split at h
  · split at h <;> simp at h
  · simp at h

theorem locateLow_key_lt {a w : Nat} : locateLow a = .key w → w < 16 := by
  fun_cases locateLow a <;> simp
  omega

/-- A KEY word the map names lies in the key store (R45). -/
theorem locate_key_lt {maxLen a w : Nat} (h : locate maxLen a = .key w) : w < 16 := by
  unfold locate at h
  split at h
  · exact locateLow_key_lt h
  split at h
  · split at h <;> simp at h
  split at h
  · split at h <;> simp at h
  · simp at h

@[simp] theorem set_inBuf (o : Operands) (r : OperandReg) (v : Word) : (o.set r v).inBuf = o.inBuf := by cases r <;> rfl
@[simp] theorem set_key (o : Operands) (r : OperandReg) (v : Word) : (o.set r v).key = o.key := by cases r <;> rfl
@[simp] theorem setKey_inBuf (o : Operands) (w : Nat) (v : Word) : (o.setKey w v).inBuf = o.inBuf := rfl
@[simp] theorem setCell_inBuf (o : Operands) (k : Nat) (v : Word) : (o.setCell k v).inBuf = o.inBuf.write k v := rfl
@[simp] theorem setCell_key (o : Operands) (k : Nat) (v : Word) : (o.setCell k v).key = o.key := rfl

/-- An operand register takes the value written, and no other changes (R57). -/
theorem get_set (o : Operands) (r q : OperandReg) (v : Word) : (o.set r v).get q = if q = r then v else o.get q := by
  cases r <;> cases q <;> rfl

theorem resetWith_inv {n : Nat} (h : legalMaxLen n = true) (p : List Event) : ({ State.resetWith n with pending := p }).Inv :=
  ⟨h, ⟨Memory.nil_wf _, Memory.nil_wf _⟩, by simp [State.statusConsistent, State.resetWith]⟩

/-- A reset of the device keeps the invariant. -/
theorem resetDevice_inv {s : State} (h : s.Inv) : s.resetDevice.Inv := resetWith_inv h.1 s.pending

theorem answer_inv {s : State} (h : s.Inv) (r : BusAnswer) : (s.answer r).Inv := h

theorem popEvent_inv {s : State} (h : s.Inv) : s.popEvent.Inv := h

/-- A write to a location of the map keeps the invariant. -/
theorem writeLocation_inv {s : State} (h : s.Inv) {a : Nat} (v : Word) : (s.writeLocation (locate s.maxLen a) v).Inv := by
  obtain ⟨hm, ⟨hin, hout⟩, hbusy, herr⟩ := h
  rcases writeLocation_cases s (locate s.maxLen a) v with ⟨e, -⟩ | ⟨e, -⟩ | ⟨e, -⟩ | ⟨e, -⟩ | ⟨e, -⟩ | ⟨e, -⟩ | ⟨hp, o, e, ho⟩ <;>
    rw [e]
  · exact ⟨hm, ⟨hin, hout⟩, hbusy, herr⟩
  · refine ⟨hm, ⟨hin, hout⟩, fun hp => ?_, fun he => ?_⟩
    · obtain ⟨h1, h2, h3⟩ := hbusy hp
      simp [h1, h2, h3]
    · simp only [State.acknowledge_err, Bool.and_eq_true] at he
      exact herr he.1
  · exact resetDevice_inv ⟨hm, ⟨hin, hout⟩, hbusy, herr⟩
  · exact ⟨hm, ⟨hin, hout⟩, hbusy, herr⟩
  · exact ⟨hm, ⟨hin, hout⟩, by simp [State.statusConsistent]⟩
  · exact ⟨hm, ⟨hin, hout⟩, hbusy, herr⟩
  · refine ⟨hm, ⟨?_, hout⟩, hbusy, herr⟩
    rcases ho with ⟨r, -, rfl⟩ | ⟨w, -, rfl⟩ | ⟨k, hk, rfl⟩
    · simpa using hin
    · simpa using hin
    · simpa using Memory.write_wf hin (locate_inp_lt hk) v

/-- A bus access keeps the invariant. -/
theorem serve_inv {s : State} (h : s.Inv) (a : Access) : (s.serve a).Inv := by
  rcases serve_cases s a with ⟨r, e⟩ | ⟨-, strb, v, -, e⟩ <;> rw [e]
  · exact answer_inv h r
  · exact answer_inv (writeLocation_inv h v) _

theorem serveMaster_cases (s : State) (addr : Nat) (size : AccessSize) (op : BusOp) :
    s.serveMaster addr size op = s ∨ ∃ a, s.serveMaster addr size op = s.serve a := by
  unfold State.serveMaster
  cases windowOffset addr with
  | none => exact .inl rfl
  | some o => exact .inr ⟨_, rfl⟩

@[simp] theorem bitOf_eq (w : Word) (i : Nat) : bitOf w i = w.getLsbD i := by
  rw [Bool.eq_iff_iff]
  simp [bitOf, BitVec.getLsbD, Nat.testBit_eq_decide_div_mod_eq]

/-- A whole-word read at a multiple of 4 answers the location's data (R84). -/
theorem serve_busRead (s : State) {a : BitVec 12} (h : a.toNat % 4 = 0) :
    s.serve (busRead a) = s.answer (.read .okay (s.readLocation (locate s.maxLen a.toNat))) := by
  simp [State.serve, served, busRead, fullStrobes, h, State.serveRead, State.locateAccess]

/-- A whole-word write at a multiple of 4 takes effect at its location and answers OKAY (R82). -/
theorem serve_busWrite (s : State) {a : BitVec 12} (h : a.toNat % 4 = 0) (v : Word) :
    s.serve (busWrite a v) = (s.writeLocation (locate s.maxLen a.toNat) v).answer (.write .okay) := by
  simp [State.serve, served, busWrite, fullStrobes, h, State.serveWrite, State.locateAccess]

/-- The map below 0x400 does not depend on MAX_LEN. -/
theorem locate_low (n : Nat) {a : Nat} (h : a < 0x400) : locate n a = locateLow a := by simp [locate, h]

theorem cell_index (b k : Nat) : (b + 4 * k - b) / 4 = k := by
  rw [Nat.add_sub_cancel_left, Nat.mul_div_cancel_left _ (by decide)]

theorem locateLow_key {a : Nat} (h : 0x040 ≤ a ∧ a < 0x080) : locateLow a = .key ((a - 0x040) / 4) := by
  fun_cases locateLow a <;> first | omega | rfl

/-- KEY[w] stands at 0x040 + 4w (R32). -/
theorem locate_key (n : Nat) {w : Nat} (h : w < 16) : locate n (0x040 + 4 * w) = .key w := by
  rw [locate_low n (by omega), locateLow_key (by omega), cell_index]

/-- IN[k] stands at 0x400 + 4k (R32). -/
theorem locate_inp {n k : Nat} (h : k < n) (hn : n ≤ 256) : locate n (0x400 + 4 * k) = .inp k := by
  rw [locate, if_neg (by omega), if_pos (by omega), cell_index, if_pos h]

/-- OUT[k] stands at 0x800 + 4k (R32). -/
theorem locate_out {n k : Nat} (h : k < n) (hn : n ≤ 256) : locate n (0x800 + 4 * k) = .out k := by
  rw [locate, if_neg (by omega), if_neg (by omega), if_pos (by omega), cell_index, if_pos h]

/-- The holes below 0x400 are reserved (R83). -/
theorem locateLow_reserved {a : Nat} (h : 0x034 ≤ a ∧ a ≤ 0x03F ∨ 0x080 ≤ a) : locateLow a = .reserved := by
  fun_cases locateLow a <;> first | omega | rfl

/-- IN and OUT cells at or beyond MAX_LEN are reserved (R9, R83). -/
theorem locate_beyond {n k : Nat} (h : n ≤ k) (hk : k < 256) :
    locate n (0x400 + 4 * k) = .reserved ∧ locate n (0x800 + 4 * k) = .reserved := by
  constructor
  · rw [locate, if_neg (by omega), if_pos (by omega), cell_index, if_neg (by omega)]
  · rw [locate, if_neg (by omega), if_neg (by omega), if_pos (by omega), cell_index, if_neg (by omega)]

theorem locate_top (n : Nat) {a : Nat} (h : 0xC00 ≤ a) : locate n a = .reserved := by
  rw [locate, if_neg (by omega), if_neg (by omega), if_neg (by omega)]

theorem writeOps_idle {s : State} (h : s.phase = .idle) (o : Operands) : s.writeOps o = { s with ops := o } := by
  simp only [State.writeOps, h]

theorem writeOps_busy {s : State} (h : s.phase = .busy) (o : Operands) : s.writeOps o = s.overrun := by
  simp only [State.writeOps, h]

theorem locateLow_ctrl {a : Nat} : locateLow a = .ctrl → a = 0x004 := by
  fun_cases locateLow a <;> simp_all

/-- CTRL stands at 0x004 alone (R32). -/
theorem locate_ctrl {n a : Nat} (h : locate n a = .ctrl) : a = 0x004 := by
  unfold locate at h
  split at h
  · exact locateLow_ctrl h
  split at h
  · split at h <;> simp at h
  split at h
  · split at h <;> simp at h
  · simp at h

/-- What an access other than a soft reset leaves alone while a command runs (R262, R265, R266). -/
theorem serve_busy {s : State} (hp : s.phase = .busy) {a : Access} (ha : isSoftReset a = false) :
    (s.serve a).phase = .busy ∧ (s.serve a).ops = s.ops ∧ (s.serve a).outBuf = s.outBuf ∧ (s.serve a).cur = s.cur ∧
      (s.serve a).maxLen = s.maxLen ∧ (s.serve a).pending = s.pending := by
  rcases serve_cases s a with ⟨r, e⟩ | ⟨hs, strb, v, ho, e⟩ <;> simp only [e]
  · exact ⟨hp, rfl, rfl, rfl, rfl, rfl⟩
  rcases writeLocation_cases s (s.locateAccess a) v with ⟨e, -⟩ | ⟨e, -⟩ | ⟨e, hl, hb⟩ | ⟨e, -⟩ | ⟨e, -, hi⟩ | ⟨e, -⟩ |
    ⟨hi, o, e, -⟩
  · rw [e]; exact ⟨hp, rfl, rfl, rfl, rfl, rfl⟩
  · rw [e]; exact ⟨hp, rfl, rfl, rfl, rfl, rfl⟩
  · have hoff : a.offset = 0x004#12 := BitVec.eq_of_toNat_eq (locate_ctrl hl)
    simp [isSoftReset, hs, hoff, ho] at ha
    simp [ha] at hb
  · rw [e]; exact ⟨hp, rfl, rfl, rfl, rfl, rfl⟩
  · rw [hp] at hi; simp at hi
  · rw [e]; exact ⟨hp, rfl, rfl, rfl, rfl, rfl⟩
  · rw [hp] at hi; simp at hi

/-- What a bus master's access other than a soft reset leaves alone while a command runs (R95, R265). -/
theorem serveMaster_busy {s : State} (hp : s.phase = .busy) {addr : Nat} {size : AccessSize} {op : BusOp}
    (hr : resets (.master addr size op) = false) :
    (s.serveMaster addr size op).phase = .busy ∧ (s.serveMaster addr size op).ops = s.ops ∧
      (s.serveMaster addr size op).outBuf = s.outBuf ∧ (s.serveMaster addr size op).cur = s.cur ∧
      (s.serveMaster addr size op).maxLen = s.maxLen ∧ (s.serveMaster addr size op).pending = s.pending := by
  unfold State.serveMaster
  simp only [resets] at hr
  cases h : windowOffset addr with
  | none => exact ⟨hp, rfl, rfl, rfl, rfl, rfl⟩
  | some o =>
    rw [h] at hr
    exact serve_busy hp hr

end Sys2Proof.Machine
end

