-- ==== Sys2Proof/Laws/Digit.lean ====
section
/-! SUPPORT. The laws of digit arithmetic (spec/40_digit_arithmetic.md rules R140 to R146). -/

namespace Sys2Proof.Machine

@[simp] theorem digitAdd_length (r : Nat) (a b : Digits) : (digitAdd r a b).length = min a.length b.length := by
  simp [digitAdd]

@[simp] theorem digitSub_length (r : Nat) (a b : Digits) : (digitSub r a b).length = min a.length b.length := by
  simp [digitSub]

theorem digitAdd_getElem (r : Nat) (a b : Digits) (k : Nat) (h : k < (digitAdd r a b).length) :
    (digitAdd r a b)[k] = (a[k]'(by simp at h; omega) + b[k]'(by simp at h; omega)) % r := by
  simp [digitAdd]

theorem digitSub_getElem (r : Nat) (a b : Digits) (k : Nat) (h : k < (digitSub r a b).length) :
    (digitSub r a b)[k] =
      ((((a[k]'(by simp at h; omega) : Nat) : Int) - ((b[k]'(by simp at h; omega) : Nat) : Int)) % (r : Int)).toNat := by
  simp [digitSub]

theorem digitAdd_lt {r : Nat} (hr : 0 < r) {a b : Digits} {d : Nat} (hd : d ∈ digitAdd r a b) : d < r := by
  obtain ⟨k, hk, rfl⟩ := List.getElem_of_mem hd
  rw [digitAdd_getElem]
  exact Nat.mod_lt _ hr

theorem digitSub_lt {r : Nat} (hr : 0 < r) {a b : Digits} {d : Nat} (hd : d ∈ digitSub r a b) : d < r := by
  obtain ⟨k, hk, rfl⟩ := List.getElem_of_mem hd
  rw [digitSub_getElem]
  have h1 := Int.emod_lt_of_pos (((a[k]'(by simp at hk; omega) : Nat) : Int) - ((b[k]'(by simp at hk; omega) : Nat) : Int))
    (by omega : (0 : Int) < r)
  omega

/-- One lane of R146: subtracting what was added gives the digit back. -/
theorem lane_sub_add {r x y : Nat} (hx : x < r) : ((((x + y) % r : Nat) : Int) - (y : Int)) % (r : Int) = x := by
  rw [Int.natCast_mod, Int.emod_sub_emod]
  push_cast
  rw [show (x : Int) + y - y = x by ring]
  exact Int.emod_eq_of_lt (by omega) (by omega)

/-- One lane of R146: adding what was subtracted gives the digit back. -/
theorem lane_add_sub {r x y : Nat} (hx : x < r) : ((((x : Int) - (y : Int)) % (r : Int)).toNat + y) % r = x := by
  have h0 : 0 ≤ ((x : Int) - (y : Int)) % (r : Int) := Int.emod_nonneg _ (by omega)
  have : (((((x : Int) - (y : Int)) % (r : Int)).toNat + y : Nat) : Int) % (r : Int) = x := by
    push_cast
    rw [Int.toNat_of_nonneg h0, Int.emod_add_emod, show (x : Int) - y + y = x by ring]
    exact Int.emod_eq_of_lt (by omega) (by omega)
  exact_mod_cast this

/-- R146: `DigitSub` undoes `DigitAdd` on digits of equal length. -/
theorem digitSub_digitAdd {r : Nat} {a b : Digits} (hl : a.length = b.length) (ha : ∀ d ∈ a, d < r) :
    digitSub r (digitAdd r a b) b = a := by
  apply List.ext_getElem
  · simp; omega
  · intro k h1 h2
    rw [digitSub_getElem, digitAdd_getElem, lane_sub_add (ha _ (List.getElem_mem h2))]
    simp

/-- R146: `DigitAdd` undoes `DigitSub` on digits of equal length. -/
theorem digitAdd_digitSub {r : Nat} {a b : Digits} (hl : a.length = b.length) (ha : ∀ d ∈ a, d < r) :
    digitAdd r (digitSub r a b) b = a := by
  apply List.ext_getElem
  · simp; omega
  · intro k h1 h2
    rw [digitAdd_getElem, digitSub_getElem, lane_add_sub (ha _ (List.getElem_mem h2))]

end Sys2Proof.Machine
end

