-- ==== Sys2Proof/Laws/Round.lean ====
section
/-! SUPPORT. The laws of packing and of the keyed round function (spec/42_round_function.md rules R200 to R210). -/

namespace Sys2Proof.Machine

@[simp] theorem le32_length (v : Nat) : (le32 v).length = 4 := rfl

@[simp] theorem be32_length (v : Nat) : (be32 v).length = 4 := rfl

@[simp] theorem be64_length (v : Nat) : (be64 v).length = 8 := rfl

/-- SHA-1's digest has 20 bytes (R166). -/
@[simp] theorem sha1_length (m : List Byte) : (sha1 m).length = 20 := by simp [sha1, HashWords.bytes]

/-- An HMAC-SHA-1 digest has 20 bytes (R171, R203). -/
@[simp] theorem hmacSha1_length (key m : List Byte) : (hmacSha1 key m).length = 20 := by simp [hmacSha1]

theorem beNat_foldl (x : List Byte) (n : Nat) :
    x.foldl (fun n b => 256 * n + b.toNat) n = n * 256 ^ x.length + beNat x := by
  induction x generalizing n with
  | nil => simp [beNat]
  | cons b x ih =>
    simp only [beNat, List.foldl_cons, List.length_cons]
    rw [ih, ih (256 * 0 + b.toNat)]
    ring

/-- The first byte is the most significant (R12). -/
theorem beNat_cons (b : Byte) (x : List Byte) : beNat (b :: x) = b.toNat * 256 ^ x.length + beNat x := by
  simp only [beNat, List.foldl_cons]
  rw [beNat_foldl]
  simp [beNat]

theorem beNat_lt (x : List Byte) : beNat x < 256 ^ x.length := by
  induction x with
  | nil => simp [beNat]
  | cons b x ih =>
    rw [beNat_cons, List.length_cons, pow_succ]
    have := b.isLt
    nlinarith

theorem pack_eq_ok_iff {v : Nat} {b : List Byte} : pack v = .ok b ↔ v ≤ Config.packMax ∧ b = le32 v := by
  unfold pack
  split
  · simp; omega
  · simp only [Except.ok.injEq]
    constructor
    · rintro rfl; exact ⟨by omega, rfl⟩
    · rintro ⟨-, rfl⟩; rfl

/-- Packing succeeds exactly when every value fits, and then gives the concatenation (R201). -/
theorem packAll_eq_ok_iff {vs : List Nat} {p : List Byte} :
    packAll vs = .ok p ↔ (∀ v ∈ vs, v ≤ Config.packMax) ∧ p = vs.flatMap le32 := by
  induction vs generalizing p with
  | nil => simp [packAll, eq_comm]
  | cons v vs ih =>
    unfold packAll
    by_cases hv : v ≤ Config.packMax
    · have hp : pack v = .ok (le32 v) := pack_eq_ok_iff.mpr ⟨hv, rfl⟩
      rw [hp]
      cases h : packAll vs with
      | error e =>
        simp only [reduceCtorEq, List.mem_cons, forall_eq_or_imp, false_iff, not_and]
        rintro ⟨-, hvs⟩
        have := ih.mpr ⟨hvs, rfl⟩
        rw [h] at this
        exact absurd this (by simp)
      | ok bs =>
        obtain ⟨hvs, rfl⟩ := ih.mp h
        simp only [Except.ok.injEq, List.mem_cons, forall_eq_or_imp, List.flatMap_cons]
        exact ⟨fun e => ⟨⟨hv, hvs⟩, e.symm⟩, fun e => e.2.symm⟩
    · have hp : pack v = .error .encoding := by unfold pack; simp; omega
      rw [hp]
      simp [hv]

/-- The only failure of packing is ERR_ENCODING (R200, R201). -/
theorem packAll_error {vs : List Nat} {e : ErrCode} (h : packAll vs = .error e) :
    e = .encoding ∧ ∃ v ∈ vs, Config.packMax < v := by
  induction vs with
  | nil => simp [packAll] at h
  | cons v vs ih =>
    unfold packAll at h
    by_cases hv : v ≤ Config.packMax
    · rw [pack_eq_ok_iff.mpr ⟨hv, rfl⟩] at h
      cases h' : packAll vs with
      | error e' =>
        rw [h'] at h
        simp only [Except.error.injEq] at h
        subst h
        obtain ⟨he, w, hw, hlt⟩ := ih h'
        exact ⟨he, w, by simp [hw], hlt⟩
      | ok bs => rw [h'] at h; simp at h
    · have hp : pack v = .error .encoding := by unfold pack; simp; omega
      rw [hp] at h
      simp only [Except.error.injEq] at h
      exact ⟨h.symm, v, by simp, by omega⟩

@[simp] theorem extractDigits_length (n r d : Nat) : (extractDigits n r d).length = n := by
  induction n generalizing d with
  | zero => rfl
  | succ n ih => simp [extractDigits, ih]

/-- R206: digit `t` of a digest number is `(D div r^t) mod r`. -/
theorem extractDigits_getElem (n r d t : Nat) (h : t < (extractDigits n r d).length) :
    (extractDigits n r d)[t] = d / r ^ t % r := by
  induction n generalizing d t with
  | zero => simp at h
  | succ n ih =>
    cases t with
    | zero => simp [extractDigits]
    | succ t =>
      simp only [extractDigits, List.getElem_cons_succ]
      rw [ih, Nat.div_div_eq_div_mul, pow_succ']

theorem extractDigits_lt {n r d x : Nat} (hr : 0 < r) (h : x ∈ extractDigits n r d) : x < r := by
  obtain ⟨k, hk, rfl⟩ := List.getElem_of_mem h
  rw [extractDigits_getElem]
  exact Nat.mod_lt _ hr

/-- The loop of `cph`: it stops at the largest power within `2^160`, or when the fuel runs out. -/
theorem cphFrom_spec (fuel r k : Nat) (h : r ^ k ≤ Config.digestRange) :
    ∃ j, cphFrom fuel r k (r ^ k) = k + j ∧ j ≤ fuel ∧ r ^ (k + j) ≤ Config.digestRange ∧
      (j < fuel → Config.digestRange < r ^ (k + j + 1)) := by
  induction fuel generalizing k with
  | zero => exact ⟨0, rfl, le_refl _, h, by simp⟩
  | succ fuel ih =>
    unfold cphFrom
    split
    · rename_i hp
      rw [← pow_succ] at hp ⊢
      obtain ⟨j, h1, h2, h3, h4⟩ := ih (k + 1) hp
      refine ⟨j + 1, by rw [h1]; ring, by omega, by rw [show k + (j + 1) = k + 1 + j by ring]; exact h3, fun hj => ?_⟩
      rw [show k + (j + 1) + 1 = k + 1 + j + 1 by ring]
      exact h4 (by omega)
    · rename_i hp
      exact ⟨0, rfl, by omega, h, fun _ => by rw [Nat.add_zero, pow_succ]; omega⟩

/-- R205: `CPH(r)` is the largest `k` with `r^k <= 2^160`. -/
theorem cph_spec {r : Nat} (hr : 2 ≤ r) : r ^ cph r ≤ Config.digestRange ∧ Config.digestRange < r ^ (cph r + 1) := by
  obtain ⟨j, h1, h2, h3, h4⟩ := cphFrom_spec 160 r 0 (by simp [Config.digestRange])
  have hc : cph r = j := by
    have : cph r = 0 + j := by rw [← h1]; rfl
    omega
  rw [Nat.zero_add] at h3 h4
  rw [hc]
  refine ⟨h3, ?_⟩
  rcases Nat.lt_or_ge j 160 with hj | hj
  · exact h4 hj
  · have hj' : j = 160 := by omega
    subst hj'
    calc Config.digestRange = 2 ^ 160 := rfl
      _ < 2 ^ 161 := by norm_num
      _ ≤ r ^ (160 + 1) := Nat.pow_le_pow_left hr 161

/-- R205: for every legal radix `5 <= CPH(r) <= 160`. -/
theorem cph_bounds {r : Nat} (hr : 2 ≤ r) (hr' : r < 2 ^ 32) : 5 ≤ cph r ∧ cph r ≤ 160 := by
  obtain ⟨h1, h2⟩ := cph_spec hr
  constructor
  · by_contra hlt
    have : r ^ (cph r + 1) ≤ 2 ^ 160 :=
      calc r ^ (cph r + 1) ≤ r ^ 5 := Nat.pow_le_pow_right (by omega) (by omega)
        _ ≤ (2 ^ 32) ^ 5 := Nat.pow_le_pow_left (by omega) 5
        _ = 2 ^ 160 := by norm_num
    exact absurd h2 (by unfold Config.digestRange; omega)
  · by_contra hgt
    have : 2 ^ 161 ≤ r ^ cph r :=
      calc 2 ^ 161 ≤ r ^ 161 := Nat.pow_le_pow_left hr 161
        _ ≤ r ^ cph r := Nat.pow_le_pow_right (by omega) (by omega)
    have h160 : r ^ cph r ≤ 2 ^ 160 := h1
    have : (2 : Nat) ^ 161 ≤ 2 ^ 160 := le_trans this h160
    norm_num at this

theorem cph_pos {r : Nat} (hr' : r < 2 ^ 32) (hr : 2 ≤ r) : 0 < cph r := by
  have := cph_bounds hr hr'
  omega

/-- The loop makes as many digits as it is asked for (R210), if a digest gives any. -/
theorem roundDigits_length (fuel : Nat) (key : List Byte) (r : Nat) (pre : List Byte) (j need : Nat) (hc : 0 < cph r)
    (hf : need ≤ fuel) : (roundDigits fuel key r pre j need).length = need := by
  induction fuel generalizing pre j need with
  | zero =>
    have : need = 0 := by omega
    subst this
    rfl
  | succ fuel ih =>
    unfold roundDigits
    split
    · rename_i h; simp [h]
    · simp only [List.length_append, extractDigits_length]
      rw [ih _ _ _ (by omega)]
      omega

/-- R208: every output digit is in `[0, r)`. -/
theorem roundDigits_lt {fuel : Nat} {key : List Byte} {r : Nat} {pre : List Byte} {j need x : Nat} (hr : 0 < r)
    (h : x ∈ roundDigits fuel key r pre j need) : x < r := by
  induction fuel generalizing pre j need with
  | zero => simp [roundDigits] at h
  | succ fuel ih =>
    unfold roundDigits at h
    split at h
    · simp at h
    · rcases List.mem_append.mp h with h | h
      · exact extractDigits_lt hr h
      · exact ih h

/-- The message prefix of digest `j` (R202): the base message for `j = 0`, else the digest before. -/
def messagePrefix (key : List Byte) (p : List Byte) : Nat → List Byte
  | 0 => p
  | j + 1 => hmacSha1 key (messagePrefix key p j ++ le32 j)

/-- R207 for the loop standing at digest `j`: digit `k` is digit `k mod c` of digest `j + k div c`. -/
theorem roundDigits_getElem (fuel : Nat) (key : List Byte) (r : Nat) (p : List Byte) (j need : Nat) (hc : 0 < cph r)
    (hf : need ≤ fuel) (k : Nat) (hk : k < (roundDigits fuel key r (messagePrefix key p j) j need).length) :
    (roundDigits fuel key r (messagePrefix key p j) j need)[k] =
      beNat (messagePrefix key p (j + k / cph r + 1)) / r ^ (k % cph r) % r := by
  induction fuel generalizing j need k with
  | zero => simp [roundDigits] at hk
  | succ fuel ih =>
    have hlen := roundDigits_length (fuel + 1) key r (messagePrefix key p j) j need hc hf
    have hkn : k < need := by omega
    have hne : need ≠ 0 := by omega
    simp only [roundDigits, if_neg hne] at hk ⊢
    rw [List.getElem_append]
    split
    · rename_i h1
      rw [extractDigits_getElem]
      simp only [extractDigits_length, lt_min_iff] at h1
      rw [Nat.div_eq_of_lt h1.1, Nat.mod_eq_of_lt h1.1]
      rfl
    · rename_i h1
      simp only [extractDigits_length, not_lt, min_le_iff] at h1
      have hck : cph r ≤ k := by omega
      have hmin : min (cph r) need = cph r := by omega
      simp only [extractDigits_length, hmin]
      have hstep := ih (j + 1) (need - cph r) (by omega) (k - cph r) (by
        rw [roundDigits_length _ _ _ _ _ _ hc (by omega)]; omega)
      have hd : k / cph r = (k - cph r) / cph r + 1 := by
        rw [← Nat.add_div_right _ hc, Nat.sub_add_cancel hck]
      have hm : k % cph r = (k - cph r) % cph r := (Nat.mod_eq_sub_mod hck)
      rw [hd, hm, show j + ((k - cph r) / cph r + 1) + 1 = j + 1 + (k - cph r) / cph r + 1 by ring]
      exact hstep

/-- R200, R209, R210: `RoundFn` fails exactly when packing fails, and else gives `L` digits in `[0, r)`. -/
theorem roundFn_cases (key : List Byte) {r : Nat} (hr : 2 ≤ r) (hr' : r < 2 ^ 32) (i : Nat) (s : Digits) (l : Nat) :
    ((∃ v ∈ i :: s, Config.packMax < v) ∧ roundFn key r i s l = .error .encoding) ∨
    ((∀ v ∈ i :: s, v ≤ Config.packMax) ∧ ∃ f, roundFn key r i s l = .ok f ∧ f.length = l ∧ ∀ d ∈ f, d < r) := by
  unfold roundFn
  cases h : packAll (i :: s) with
  | error e =>
    obtain ⟨rfl, hv⟩ := packAll_error h
    exact .inl ⟨hv, rfl⟩
  | ok p =>
    obtain ⟨hv, rfl⟩ := packAll_eq_ok_iff.mp h
    exact .inr ⟨hv, _, rfl, roundDigits_length _ _ _ _ _ _ (cph_pos hr' hr) le_rfl, fun d hd => roundDigits_lt (by omega) hd⟩

/-- R207: the closed form of `RoundFn`. -/
theorem roundFn_getElem {key : List Byte} {r i l : Nat} {s f : Digits} (hc : 0 < cph r) (h : roundFn key r i s l = .ok f)
    (k : Nat) (hk : k < f.length) :
    f[k] = beNat (messagePrefix key ((i :: s).flatMap le32) (k / cph r + 1)) / r ^ (k % cph r) % r := by
  unfold roundFn at h
  cases hp : packAll (i :: s) with
  | error e => rw [hp] at h; simp at h
  | ok p =>
    obtain ⟨-, rfl⟩ := packAll_eq_ok_iff.mp hp
    rw [hp] at h
    simp only [Except.ok.injEq] at h
    subst h
    have := roundDigits_getElem l key r ((i :: s).flatMap le32) 0 l hc le_rfl k hk
    rw [Nat.zero_add] at this
    exact this

end Sys2Proof.Machine
end

