-- ==== Sys2Proof/Laws/Feistel.lean ====
section
/-! SUPPORT. The laws of the Feistel rounds (spec/43_feistel.md rules R230 to R239). -/

namespace Sys2Proof.Machine

/-- Both halves are digit sequences over `r` (R13). -/
def digitHalves (r : Nat) (h : Halves) : Prop := (∀ d ∈ h.1, d < r) ∧ ∀ d ∈ h.2, d < r

/-- The lengths of the halves after `n` rounds that start from `h` (R232): swapped when `n` is odd. -/
def halfLengths (n : Nat) (h : Halves) : Nat × Nat :=
  if n % 2 = 0 then (h.1.length, h.2.length) else (h.2.length, h.1.length)

/-- What one round of `Encrypt` can do (R231): fail on packing, or give the next halves, which `Decrypt`'s round with
the same index takes back (R234, R235). -/
theorem encRound_cases (key : List Byte) {r : Nat} (hr : 2 ≤ r) (hr' : r < 2 ^ 32) (i : Nat) {h : Halves}
    (hd : digitHalves r h) :
    ((∃ v ∈ i :: h.2, Config.packMax < v) ∧ encRound key r i h = .error .encoding) ∨
    ((∀ v ∈ i :: h.2, v ≤ Config.packMax) ∧ ∃ g, encRound key r i h = .ok g ∧ digitHalves r g ∧
      g.1.length = h.2.length ∧ g.2.length = h.1.length ∧ decRound key r i g = .ok h) := by
  rcases roundFn_cases key hr hr' i h.2 h.1.length with ⟨hv, he⟩ | ⟨hv, f, he, hl, -⟩
  · exact .inl ⟨hv, by simp [encRound, he]⟩
  · refine .inr ⟨hv, (h.2, digitAdd r h.1 f), by simp [encRound, he],
      ⟨hd.2, fun d hd' => digitAdd_lt (by omega) hd'⟩, rfl, by simp [hl], ?_⟩
    have hlen : (digitAdd r h.1 f).length = h.1.length := by simp [hl]
    simp only [decRound, hlen, he, digitSub_digitAdd hl.symm hd.1]

/-- What one round of `Decrypt` can do (R234), with `Encrypt`'s round taking it back (R231, R235). -/
theorem decRound_cases (key : List Byte) {r : Nat} (hr : 2 ≤ r) (hr' : r < 2 ^ 32) (i : Nat) {h : Halves}
    (hd : digitHalves r h) :
    ((∃ v ∈ i :: h.1, Config.packMax < v) ∧ decRound key r i h = .error .encoding) ∨
    ((∀ v ∈ i :: h.1, v ≤ Config.packMax) ∧ ∃ g, decRound key r i h = .ok g ∧ digitHalves r g ∧
      g.1.length = h.2.length ∧ g.2.length = h.1.length ∧ encRound key r i g = .ok h) := by
  rcases roundFn_cases key hr hr' i h.1 h.2.length with ⟨hv, he⟩ | ⟨hv, f, he, hl, -⟩
  · exact .inl ⟨hv, by simp [decRound, he]⟩
  · refine .inr ⟨hv, (digitSub r h.2 f, h.1), by simp [decRound, he],
      ⟨fun d hd' => digitSub_lt (by omega) hd', hd.1⟩, by simp [hl], rfl, ?_⟩
    have hlen : (digitSub r h.2 f).length = h.2.length := by simp [hl]
    simp only [encRound, hlen, he, digitAdd_digitSub hl.symm hd.2]

/-- What the rounds of `Encrypt` can do: fail with ERR_ENCODING, or give halves of the lengths of R232 that the rounds of
`Decrypt` take back. -/
theorem encRounds_cases (key : List Byte) {r : Nat} (hr : 2 ≤ r) (hr' : r < 2 ^ 32) (n : Nat) {h : Halves}
    (hd : digitHalves r h) :
    encRounds key r n h = .error .encoding ∨
    ∃ g, encRounds key r n h = .ok g ∧ digitHalves r g ∧ (g.1.length, g.2.length) = halfLengths n h ∧
      decRounds key r n g = .ok h := by
  induction n with
  | zero => exact .inr ⟨h, rfl, hd, rfl, rfl⟩
  | succ n ih =>
    rcases ih with he | ⟨g, he, hg, hl, hdec⟩
    · exact .inl (by simp [encRounds, he])
    · rcases encRound_cases key hr hr' n hg with ⟨-, he'⟩ | ⟨-, g', he', hg', h1, h2, hdec'⟩
      · exact .inl (by simp [encRounds, he, he'])
      · refine .inr ⟨g', by simp [encRounds, he, he'], hg', ?_, by simp [decRounds, hdec', hdec]⟩
        rw [h1, h2]
        unfold halfLengths at hl ⊢
        have hpar : n % 2 = 0 ∨ n % 2 = 1 := by omega
        rcases hpar with hp | hp
        · rw [if_pos hp] at hl
          rw [if_neg (by omega)]
          simp only [Prod.mk.injEq] at hl ⊢
          exact ⟨hl.2, hl.1⟩
        · rw [if_neg (by omega)] at hl
          rw [if_pos (by omega)]
          simp only [Prod.mk.injEq] at hl ⊢
          exact ⟨hl.2, hl.1⟩

/-- What the rounds of `Decrypt` can do, with the rounds of `Encrypt` taking it back. -/
theorem decRounds_cases (key : List Byte) {r : Nat} (hr : 2 ≤ r) (hr' : r < 2 ^ 32) (n : Nat) {h : Halves}
    (hd : digitHalves r h) :
    decRounds key r n h = .error .encoding ∨
    ∃ g, decRounds key r n h = .ok g ∧ digitHalves r g ∧ (g.1.length, g.2.length) = halfLengths n h ∧
      encRounds key r n g = .ok h := by
  induction n generalizing h with
  | zero => exact .inr ⟨h, rfl, hd, rfl, rfl⟩
  | succ n ih =>
    rcases decRound_cases key hr hr' n hd with ⟨-, he⟩ | ⟨-, g, he, hg, h1, h2, henc⟩
    · exact .inl (by simp [decRounds, he])
    · rcases ih hg with he' | ⟨g', he', hg', hl, henc'⟩
      · exact .inl (by simp [decRounds, he, he'])
      · refine .inr ⟨g', by simp [decRounds, he, he'], hg', ?_, by simp [encRounds, henc, henc']⟩
        rw [hl]
        unfold halfLengths
        have hpar : n % 2 = 0 ∨ n % 2 = 1 := by omega
        rcases hpar with hp | hp
        · rw [if_pos hp, if_neg (by omega), h1, h2]
        · rw [if_neg (by omega), if_pos (by omega), h1, h2]

/-- R239: rounds whose index and digits all pack succeed. -/
theorem encRounds_ok (key : List Byte) {r : Nat} (hr : 2 ≤ r) (hr' : r ≤ 2 ^ 31) {n : Nat} (hn : n ≤ 2 ^ 31) {h : Halves}
    (hd : digitHalves r h) : ∃ g, encRounds key r n h = .ok g := by
  have hr2 : r < 2 ^ 32 := by omega
  induction n with
  | zero => exact ⟨h, rfl⟩
  | succ n ih =>
    obtain ⟨g, hg⟩ := ih (by omega)
    rcases encRounds_cases key hr hr2 n hd with he | ⟨g', he, hg', -, -⟩
    · rw [hg] at he; simp at he
    · rw [hg] at he
      simp only [Except.ok.injEq] at he
      subst he
      rcases encRound_cases key hr hr2 n hg' with ⟨⟨v, hv, hlt⟩, -⟩ | ⟨-, g'', he'', -⟩
      · exfalso
        rcases List.mem_cons.mp hv with rfl | hv
        · unfold Config.packMax at hlt; omega
        · have := hg'.2 v hv
          unfold Config.packMax at hlt; omega
      · exact ⟨g'', by simp [encRounds, hg, he'']⟩

/-- R239, for `Decrypt`. -/
theorem decRounds_ok (key : List Byte) {r : Nat} (hr : 2 ≤ r) (hr' : r ≤ 2 ^ 31) {n : Nat} (hn : n ≤ 2 ^ 31) {h : Halves}
    (hd : digitHalves r h) : ∃ g, decRounds key r n h = .ok g := by
  have hr2 : r < 2 ^ 32 := by omega
  induction n generalizing h with
  | zero => exact ⟨h, rfl⟩
  | succ n ih =>
    rcases decRound_cases key hr hr2 n hd with ⟨⟨v, hv, hlt⟩, -⟩ | ⟨-, g, he, hg, -⟩
    · exfalso
      rcases List.mem_cons.mp hv with rfl | hv
      · unfold Config.packMax at hlt; omega
      · have := hd.1 v hv
        unfold Config.packMax at hlt; omega
    · obtain ⟨g', hg'⟩ := ih (by omega) hg
      exact ⟨g', by simp [decRounds, he, hg']⟩

theorem pack_large {v : Nat} (h : Config.packMax < v) : pack v = .error .encoding := by simp [pack, h]

/-- A round whose index does not pack fails (R200, R239). -/
theorem roundFn_large_index {key : List Byte} {r i l : Nat} {s : Digits} (h : Config.packMax < i) :
    roundFn key r i s l = .error .encoding := by simp [roundFn, packAll, pack_large h]

/-- R239: with more than `2^31` rounds `Encrypt` reaches an index that does not pack. -/
theorem encRounds_large (key : List Byte) {r : Nat} (hr : 2 ≤ r) (hr' : r < 2 ^ 32) {n : Nat} (hn : 2 ^ 31 < n)
    {h : Halves} (hd : digitHalves r h) : encRounds key r n h = .error .encoding := by
  induction n with
  | zero => omega
  | succ n ih =>
    rcases encRounds_cases key hr hr' n hd with he | ⟨g, he, -⟩
    · simp [encRounds, he]
    · have hidx : Config.packMax < n := by unfold Config.packMax; omega
      simp [encRounds, he, encRound, roundFn_large_index hidx]

/-- R238, R239: with more than `2^31` rounds the first index of `Decrypt` does not pack. -/
theorem decRounds_large (key : List Byte) {r n : Nat} (hn : 2 ^ 31 < n) (h : Halves) :
    decRounds key r n h = .error .encoding := by
  cases n with
  | zero => omega
  | succ n =>
    have hidx : Config.packMax < n := by unfold Config.packMax; omega
    simp [decRounds, decRound, roundFn_large_index hidx]

theorem digitHalves_splitAt {r k : Nat} {v : Digits} (hv : ∀ d ∈ v, d < r) : digitHalves r (splitAt k v) :=
  ⟨fun d hd => hv d (List.mem_of_mem_take hd), fun d hd => hv d (List.mem_of_mem_drop hd)⟩

theorem splitAt_append {a b : Digits} {k : Nat} (h : a.length = k) : splitAt k (a ++ b) = (a, b) := by
  subst h; simp [splitAt]

/-- What `Encrypt` can do (R231, R235, R236): fail with ERR_ENCODING, or give a digit sequence of the same length that
`Decrypt` takes back. -/
theorem encrypt_cases (key : List Byte) {r : Nat} (hr : 2 ≤ r) (hr' : r < 2 ^ 32) (n : Nat) {v : Digits}
    (hv : ∀ d ∈ v, d < r) :
    encrypt key r n v = .error .encoding ∨
    ∃ w, encrypt key r n v = .ok w ∧ w.length = v.length ∧ (∀ d ∈ w, d < r) ∧ decrypt key r n w = .ok v := by
  rcases encRounds_cases key hr hr' n (digitHalves_splitAt (k := v.length / 2) hv) with he | ⟨g, he, hg, hl, hdec⟩
  · exact .inl (by simp [encrypt, he, joinHalves])
  · have hlen : g.1.length = decSplit n v.length ∧ g.1.length + g.2.length = v.length := by
      have ht : min (v.length / 2) v.length = v.length / 2 := by omega
      unfold halfLengths at hl
      unfold decSplit
      split at hl <;> rename_i hp <;> simp only [splitAt, List.length_take, List.length_drop, Prod.mk.injEq] at hl
      · rw [if_pos hp]; omega
      · rw [if_neg hp]; omega
    refine .inr ⟨g.1 ++ g.2, by simp [encrypt, he, joinHalves], by simp [hlen.2], fun d hd => ?_, ?_⟩
    · rcases List.mem_append.mp hd with hd | hd
      · exact hg.1 d hd
      · exact hg.2 d hd
    · unfold decrypt
      rw [List.length_append, hlen.2, splitAt_append hlen.1, show (g.1, g.2) = g from rfl, hdec]
      simp [joinHalves, splitAt]

/-- What `Decrypt` can do (R234, R235, R236). -/
theorem decrypt_cases (key : List Byte) {r : Nat} (hr : 2 ≤ r) (hr' : r < 2 ^ 32) (n : Nat) {w : Digits}
    (hw : ∀ d ∈ w, d < r) :
    decrypt key r n w = .error .encoding ∨
    ∃ v, decrypt key r n w = .ok v ∧ v.length = w.length ∧ (∀ d ∈ v, d < r) ∧ encrypt key r n v = .ok w := by
  rcases decRounds_cases key hr hr' n (digitHalves_splitAt (k := decSplit n w.length) hw) with he | ⟨g, he, hg, hl, henc⟩
  · exact .inl (by simp [decrypt, he, joinHalves])
  · have hlen : g.1.length = w.length / 2 ∧ g.1.length + g.2.length = w.length := by
      unfold halfLengths decSplit at hl
      split at hl <;> rename_i hp <;> simp only [splitAt, List.length_take, List.length_drop, Prod.mk.injEq] at hl <;> omega
    refine .inr ⟨g.1 ++ g.2, by simp [decrypt, he, joinHalves], by simp [hlen.2], fun d hd => ?_, ?_⟩
    · rcases List.mem_append.mp hd with hd | hd
      · exact hg.1 d hd
      · exact hg.2 d hd
    · unfold encrypt
      rw [List.length_append, hlen.2, splitAt_append hlen.1, show (g.1, g.2) = g from rfl, henc]
      simp [joinHalves, splitAt]

end Sys2Proof.Machine
end

