-- ==== Sys2Proof/Laws/Exec.lean ====
section
/-! SUPPORT. What a command can do (spec/44_control.md rules R263, R264): its result, the extent of what it writes, and
the parts of the invariant a completion keeps. -/

namespace Sys2Proof.Machine

/-- `Execute`'s result for a command (R263), as one function. -/
def result : Instr → Nat → Operands → Result
  | .nop, _, _ => nopResult
  | .enc, n, o => encResult n o
  | .dec, n, o => decResult n o
  | .rfn, n, o => rfnResult n o
  | .dadd, n, o => daddResult n o
  | .dsub, n, o => dsubResult n o

/-- Every command answers a next state: the completion with its result (R264, R272). -/
theorem exec_eq (i : Instr) (s : State) : exec i s = .next (s.complete (result i s.maxLen s.ops)) := by
  cases i <;> rfl

@[simp] theorem cells_length (o : Operands) (a n : Nat) : (o.cells a n).length = n := by simp [Operands.cells]

@[simp] theorem cells_getElem (o : Operands) (a n k : Nat) (h : k < (o.cells a n).length) :
    (o.cells a n)[k] = (o.inBuf.read (a + k)).toNat := by
  simp [Operands.cells]

/-- R292 check 6 passes exactly when every cell below `n` holds a digit. -/
theorem badDigit_eq_false_iff {o : Operands} {n : Nat} :
    o.badDigit n = false ↔ ∀ k < n, (o.inBuf.read k).toNat < o.radix.toNat := by
  simp [Operands.badDigit, Operands.cells]

theorem badDigit_eq_true_iff {o : Operands} {n : Nat} :
    o.badDigit n = true ↔ ∃ k < n, o.radix.toNat ≤ (o.inBuf.read k).toNat := by
  simp [Operands.badDigit, Operands.cells]

theorem cells_digits {o : Operands} {n a m : Nat} (h : o.badDigit n = false) (hm : a + m ≤ n) :
    ∀ d ∈ o.cells a m, d < o.radix.toNat := by
  intro d hd
  simp only [Operands.cells, List.mem_map, List.mem_range] at hd
  obtain ⟨k, hk, rfl⟩ := hd
  exact badDigit_eq_false_iff.mp h _ (by omega)

/-- What the checks of ENC and DEC can do (R292): stop at the first that fails, with its code, or let the body through. -/
theorem checkedFeistel_cases (maxLen : Nat) (o : Operands) (body : Result) :
    (64 < o.keylen.toNat ∧ o.checkedFeistel maxLen body = .error .keylen) ∨
    (o.keylen.toNat ≤ 64 ∧ o.radix.toNat < 2 ∧ o.checkedFeistel maxLen body = .error .radix) ∨
    (o.keylen.toNat ≤ 64 ∧ 2 ≤ o.radix.toNat ∧ o.rounds.toNat = 0 ∧ o.checkedFeistel maxLen body = .error .rounds) ∨
    (o.keylen.toNat ≤ 64 ∧ 2 ≤ o.radix.toNat ∧ o.rounds.toNat ≠ 0 ∧ (o.len.toNat < 2 ∨ maxLen < o.len.toNat) ∧
      o.checkedFeistel maxLen body = .error .length) ∨
    (o.keylen.toNat ≤ 64 ∧ 2 ≤ o.radix.toNat ∧ o.rounds.toNat ≠ 0 ∧ 2 ≤ o.len.toNat ∧ o.len.toNat ≤ maxLen ∧
      o.badDigit o.len.toNat = true ∧ o.checkedFeistel maxLen body = .error .digit) ∨
    (o.keylen.toNat ≤ 64 ∧ 2 ≤ o.radix.toNat ∧ o.rounds.toNat ≠ 0 ∧ 2 ≤ o.len.toNat ∧ o.len.toNat ≤ maxLen ∧
      o.badDigit o.len.toNat = false ∧ o.checkedFeistel maxLen body = body) := by
  unfold Operands.checkedFeistel Config.keyMax
  by_cases h1 : 64 < o.keylen.toNat
  · exact .inl ⟨h1, if_pos h1⟩
  by_cases h2 : o.radix.toNat < 2
  · exact .inr (.inl ⟨by omega, h2, by rw [if_neg h1, if_pos h2]⟩)
  by_cases h3 : o.rounds.toNat = 0
  · exact .inr (.inr (.inl ⟨by omega, by omega, h3, by rw [if_neg h1, if_neg h2, if_pos h3]⟩))
  by_cases h4 : o.len.toNat < 2 ∨ maxLen < o.len.toNat
  · exact .inr (.inr (.inr (.inl ⟨by omega, by omega, h3, h4, by rw [if_neg h1, if_neg h2, if_neg h3, if_pos h4]⟩)))
  cases h5 : o.badDigit o.len.toNat with
  | true =>
    exact .inr (.inr (.inr (.inr (.inl ⟨by omega, by omega, h3, by omega, by omega, rfl, by
      rw [if_neg h1, if_neg h2, if_neg h3, if_neg h4]; rfl⟩))))
  | false =>
    exact .inr (.inr (.inr (.inr (.inr ⟨by omega, by omega, h3, by omega, by omega, rfl, by
      rw [if_neg h1, if_neg h2, if_neg h3, if_neg h4]; rfl⟩))))

/-- What the checks of RFN can do (R292). -/
theorem checkedRound_cases (maxLen : Nat) (o : Operands) (body : Result) :
    (64 < o.keylen.toNat ∧ o.checkedRound maxLen body = .error .keylen) ∨
    (o.keylen.toNat ≤ 64 ∧ o.radix.toNat < 2 ∧ o.checkedRound maxLen body = .error .radix) ∨
    (o.keylen.toNat ≤ 64 ∧ 2 ≤ o.radix.toNat ∧ (maxLen < o.len.toNat ∨ maxLen < o.olen.toNat) ∧
      o.checkedRound maxLen body = .error .length) ∨
    (o.keylen.toNat ≤ 64 ∧ 2 ≤ o.radix.toNat ∧ o.len.toNat ≤ maxLen ∧ o.olen.toNat ≤ maxLen ∧
      o.badDigit o.len.toNat = true ∧ o.checkedRound maxLen body = .error .digit) ∨
    (o.keylen.toNat ≤ 64 ∧ 2 ≤ o.radix.toNat ∧ o.len.toNat ≤ maxLen ∧ o.olen.toNat ≤ maxLen ∧
      o.badDigit o.len.toNat = false ∧ o.checkedRound maxLen body = body) := by
  unfold Operands.checkedRound Config.keyMax
  by_cases h1 : 64 < o.keylen.toNat
  · exact .inl ⟨h1, if_pos h1⟩
  by_cases h2 : o.radix.toNat < 2
  · exact .inr (.inl ⟨by omega, h2, by rw [if_neg h1, if_pos h2]⟩)
  by_cases h4 : maxLen < o.len.toNat ∨ maxLen < o.olen.toNat
  · exact .inr (.inr (.inl ⟨by omega, by omega, h4, by rw [if_neg h1, if_neg h2, if_pos h4]⟩))
  cases h5 : o.badDigit o.len.toNat with
  | true =>
    exact .inr (.inr (.inr (.inl ⟨by omega, by omega, by omega, by omega, rfl, by
      rw [if_neg h1, if_neg h2, if_neg h4]; rfl⟩)))
  | false =>
    exact .inr (.inr (.inr (.inr ⟨by omega, by omega, by omega, by omega, rfl, by
      rw [if_neg h1, if_neg h2, if_neg h4]; rfl⟩)))

/-- What the checks of DADD and DSUB can do (R292). -/
theorem checkedArith_cases (maxLen : Nat) (o : Operands) (body : Result) :
    (o.radix.toNat < 2 ∧ o.checkedArith maxLen body = .error .radix) ∨
    (2 ≤ o.radix.toNat ∧ maxLen < o.alen.toNat + o.blen.toNat ∧ o.checkedArith maxLen body = .error .length) ∨
    (2 ≤ o.radix.toNat ∧ o.alen.toNat + o.blen.toNat ≤ maxLen ∧ o.badDigit (o.alen.toNat + o.blen.toNat) = true ∧
      o.checkedArith maxLen body = .error .digit) ∨
    (2 ≤ o.radix.toNat ∧ o.alen.toNat + o.blen.toNat ≤ maxLen ∧ o.badDigit (o.alen.toNat + o.blen.toNat) = false ∧
      o.checkedArith maxLen body = body) := by
  unfold Operands.checkedArith
  by_cases h1 : o.radix.toNat < 2
  · exact .inl ⟨h1, if_pos h1⟩
  by_cases h2 : maxLen < o.alen.toNat + o.blen.toNat
  · exact .inr (.inl ⟨by omega, h2, by rw [if_neg h1, if_pos h2]⟩)
  cases h5 : o.badDigit (o.alen.toNat + o.blen.toNat) with
  | true => exact .inr (.inr (.inl ⟨by omega, by omega, rfl, by rw [if_neg h1, if_neg h2]; rfl⟩))
  | false => exact .inr (.inr (.inr ⟨by omega, by omega, rfl, by rw [if_neg h1, if_neg h2]; rfl⟩))

/-- When ENC or DEC gets past its checks (R292), the checks hold. -/
theorem checkedFeistel_ok {maxLen : Nat} {o : Operands} {body : Result} {u : Digits}
    (h : o.checkedFeistel maxLen body = .ok u) :
    o.keylen.toNat ≤ 64 ∧ 2 ≤ o.radix.toNat ∧ o.rounds.toNat ≠ 0 ∧ 2 ≤ o.len.toNat ∧ o.len.toNat ≤ maxLen ∧
      o.badDigit o.len.toNat = false ∧ body = .ok u := by
  rcases checkedFeistel_cases maxLen o body with ⟨-, e⟩ | ⟨-, -, e⟩ | ⟨-, -, -, e⟩ | ⟨-, -, -, -, e⟩ | ⟨-, -, -, -, -, -, e⟩ |
    ⟨h1, h2, h3, h4, h5, h6, e⟩ <;> rw [e] at h
  · simp at h
  · simp at h
  · simp at h
  · simp at h
  · simp at h
  · exact ⟨h1, h2, h3, h4, h5, h6, h⟩

/-- When RFN gets past its checks (R292), the checks hold. -/
theorem checkedRound_ok {maxLen : Nat} {o : Operands} {body : Result} {u : Digits}
    (h : o.checkedRound maxLen body = .ok u) :
    o.keylen.toNat ≤ 64 ∧ 2 ≤ o.radix.toNat ∧ o.len.toNat ≤ maxLen ∧ o.olen.toNat ≤ maxLen ∧
      o.badDigit o.len.toNat = false ∧ body = .ok u := by
  rcases checkedRound_cases maxLen o body with ⟨-, e⟩ | ⟨-, -, e⟩ | ⟨-, -, -, e⟩ | ⟨-, -, -, -, -, e⟩ |
    ⟨h1, h2, h3, h4, h5, e⟩ <;> rw [e] at h
  · simp at h
  · simp at h
  · simp at h
  · simp at h
  · exact ⟨h1, h2, h3, h4, h5, h⟩

/-- When DADD or DSUB gets past its checks (R292), the checks hold. -/
theorem checkedArith_ok {maxLen : Nat} {o : Operands} {body : Result} {u : Digits}
    (h : o.checkedArith maxLen body = .ok u) :
    2 ≤ o.radix.toNat ∧ o.alen.toNat + o.blen.toNat ≤ maxLen ∧ o.badDigit (o.alen.toNat + o.blen.toNat) = false ∧
      body = .ok u := by
  rcases checkedArith_cases maxLen o body with ⟨-, e⟩ | ⟨-, -, e⟩ | ⟨-, -, -, e⟩ | ⟨h1, h2, h3, e⟩ <;> rw [e] at h
  · simp at h
  · simp at h
  · simp at h
  · exact ⟨h1, h2, h3, h⟩

/-- The checks of ENC and DEC that hold let the body through (R292). -/
theorem checkedFeistel_of {maxLen : Nat} {o : Operands} (body : Result) (h1 : o.keylen.toNat ≤ 64)
    (h2 : 2 ≤ o.radix.toNat) (h3 : o.rounds.toNat ≠ 0) (h4 : 2 ≤ o.len.toNat) (h5 : o.len.toNat ≤ maxLen)
    (h6 : o.badDigit o.len.toNat = false) : o.checkedFeistel maxLen body = body := by
  unfold Operands.checkedFeistel Config.keyMax
  rw [if_neg (by omega), if_neg (by omega), if_neg h3, if_neg (by omega), if_neg (by simp [h6])]

theorem checkedRound_of {maxLen : Nat} {o : Operands} (body : Result) (h1 : o.keylen.toNat ≤ 64)
    (h2 : 2 ≤ o.radix.toNat) (h4 : o.len.toNat ≤ maxLen) (h5 : o.olen.toNat ≤ maxLen)
    (h6 : o.badDigit o.len.toNat = false) : o.checkedRound maxLen body = body := by
  unfold Operands.checkedRound Config.keyMax
  rw [if_neg (by omega), if_neg (by omega), if_neg (by omega), if_neg (by simp [h6])]

theorem checkedArith_of {maxLen : Nat} {o : Operands} (body : Result) (h2 : 2 ≤ o.radix.toNat)
    (h4 : o.alen.toNat + o.blen.toNat ≤ maxLen) (h6 : o.badDigit (o.alen.toNat + o.blen.toNat) = false) :
    o.checkedArith maxLen body = body := by
  unfold Operands.checkedArith
  rw [if_neg (by omega), if_neg (by omega), if_neg (by simp [h6])]

/-- A successful command writes exactly the cells of R114, within OUT, and digits only (R208, R236). -/
theorem result_ok {i : Instr} {maxLen : Nat} {o : Operands} {u : Digits} (h : result i maxLen o = .ok u) :
    u.length = cellsWritten i o ∧ u.length ≤ maxLen ∧ ∀ d ∈ u, d < o.radix.toNat := by
  have hr' : o.radix.toNat < 2 ^ 32 := o.radix.isLt
  cases i with
  | nop =>
    simp only [result, nopResult, Except.ok.injEq] at h
    subst h
    simp [cellsWritten]
  | enc =>
    obtain ⟨-, hr, -, -, hl, hb, hbody⟩ := checkedFeistel_ok h
    rcases encrypt_cases o.keyBytes hr hr' o.rounds.toNat (cells_digits hb (Nat.zero_add _).le) with he | ⟨w, he, h1, h2, -⟩
    · rw [he] at hbody; simp at hbody
    · rw [he] at hbody
      simp only [Except.ok.injEq] at hbody
      subst hbody
      simp only [cells_length] at h1
      exact ⟨h1, by omega, h2⟩
  | dec =>
    obtain ⟨-, hr, -, -, hl, hb, hbody⟩ := checkedFeistel_ok h
    rcases decrypt_cases o.keyBytes hr hr' o.rounds.toNat (cells_digits hb (Nat.zero_add _).le) with he | ⟨w, he, h1, h2, -⟩
    · rw [he] at hbody; simp at hbody
    · rw [he] at hbody
      simp only [Except.ok.injEq] at hbody
      subst hbody
      simp only [cells_length] at h1
      exact ⟨h1, by omega, h2⟩
  | rfn =>
    obtain ⟨-, hr, -, hl, -, hbody⟩ := checkedRound_ok h
    rcases roundFn_cases o.keyBytes hr hr' o.ridx.toNat (o.cells 0 o.len.toNat) o.olen.toNat with ⟨-, he⟩ | ⟨-, f, he, h1, h2⟩
    · rw [he] at hbody; simp at hbody
    · rw [he] at hbody
      simp only [Except.ok.injEq] at hbody
      subst hbody
      exact ⟨h1, by omega, h2⟩
  | dadd =>
    obtain ⟨hr, hl, -, hbody⟩ := checkedArith_ok h
    simp only [Except.ok.injEq] at hbody
    subst hbody
    refine ⟨by simp [cellsWritten], by simp; omega, fun d hd => digitAdd_lt (by omega) hd⟩
  | dsub =>
    obtain ⟨hr, hl, -, hbody⟩ := checkedArith_ok h
    simp only [Except.ok.injEq] at hbody
    subst hbody
    refine ⟨by simp [cellsWritten], by simp; omega, fun d hd => digitSub_lt (by omega) hd⟩

/-- A command never raises the code OK (R16, R264). -/
theorem result_error_ne_ok {i : Instr} {maxLen : Nat} {o : Operands} {c : ErrCode} (h : result i maxLen o = .error c) :
    c ≠ .ok := by
  have hround : ∀ (r : Nat) (k : List Byte) (j l : Nat) (s : Digits) (e : ErrCode), roundFn k r j s l = .error e → e ≠ .ok := by
    intro r k j l s e he
    unfold roundFn at he
    cases hp : packAll (j :: s) with
    | error e' =>
      rw [hp] at he
      simp only [Except.error.injEq] at he
      obtain ⟨rfl, -⟩ := packAll_error hp
      subst he
      decide
    | ok p => rw [hp] at he; simp at he
  have henc : ∀ (k : List Byte) (r n : Nat) (hh : Halves) (e : ErrCode), encRounds k r n hh = .error e → e ≠ .ok := by
    intro k r n hh e
    induction n with
    | zero => simp [encRounds]
    | succ n ih =>
      intro he
      unfold encRounds at he
      cases h1 : encRounds k r n hh with
      | error e' => rw [h1] at he; simp only [Except.error.injEq] at he; subst he; exact ih h1
      | ok g =>
        rw [h1] at he
        simp only [encRound] at he
        cases h2 : roundFn k r n g.2 g.1.length with
        | error e' => rw [h2] at he; simp only [Except.error.injEq] at he; subst he; exact hround _ _ _ _ _ _ h2
        | ok f => rw [h2] at he; simp at he
  have hdec : ∀ (k : List Byte) (r n : Nat) (hh : Halves) (e : ErrCode), decRounds k r n hh = .error e → e ≠ .ok := by
    intro k r n
    induction n with
    | zero => simp [decRounds]
    | succ n ih =>
      intro hh e he
      unfold decRounds at he
      cases h2 : decRound k r n hh with
      | error e' =>
        rw [h2] at he; simp only [Except.error.injEq] at he; subst he
        unfold decRound at h2
        cases h3 : roundFn k r n hh.1 hh.2.length with
        | error e'' => rw [h3] at h2; simp only [Except.error.injEq] at h2; subst h2; exact hround _ _ _ _ _ _ h3
        | ok f => rw [h3] at h2; simp at h2
      | ok g => rw [h2] at he; exact ih _ _ he
  have hjoin : ∀ (x : Except ErrCode Halves) (e : ErrCode), joinHalves x = .error e → x = .error e := by
    intro x e he
    cases x <;> simp [joinHalves] at he
    rw [he]
  cases i with
  | nop => simp [result, nopResult] at h
  | enc =>
    simp only [result, encResult, Operands.checkedFeistel] at h
    repeat' split at h
    all_goals first
      | (simp only [Except.error.injEq] at h; subst h; decide)
      | exact henc _ _ _ _ _ (hjoin _ _ h)
  | dec =>
    simp only [result, decResult, Operands.checkedFeistel] at h
    repeat' split at h
    all_goals first
      | (simp only [Except.error.injEq] at h; subst h; decide)
      | exact hdec _ _ _ _ _ (hjoin _ _ h)
  | rfn =>
    simp only [result, rfnResult, Operands.checkedRound] at h
    repeat' split at h
    all_goals first
      | (simp only [Except.error.injEq] at h; subst h; decide)
      | exact hround _ _ _ _ _ _ h
  | dadd =>
    simp only [result, daddResult, Operands.checkedArith] at h
    repeat' split at h
    all_goals (simp only [Except.error.injEq, reduceCtorEq] at h)
    all_goals (subst h; decide)
  | dsub =>
    simp only [result, dsubResult, Operands.checkedArith] at h
    repeat' split at h
    all_goals (simp only [Except.error.injEq, reduceCtorEq] at h)
    all_goals (subst h; decide)

/-- What a command can do, said once: complete with OK and write the cells of R114, or complete with a code other than OK
and write STATUS only (R264, R294). -/
theorem exec_cases (i : Instr) (s : State) :
    (∃ u, exec i s = .next (s.completeOk u) ∧ result i s.maxLen s.ops = .ok u ∧ u.length = cellsWritten i s.ops ∧
      u.length ≤ s.maxLen ∧ ∀ d ∈ u, d < s.ops.radix.toNat) ∨
    (∃ c, exec i s = .next (s.completeError c) ∧ result i s.maxLen s.ops = .error c ∧ c ≠ .ok) := by
  rw [exec_eq]
  cases h : result i s.maxLen s.ops with
  | ok u =>
    obtain ⟨h1, h2, h3⟩ := result_ok h
    exact .inl ⟨u, rfl, rfl, h1, h2, h3⟩
  | error c => exact .inr ⟨c, rfl, rfl, result_error_ne_ok h⟩

/-- A completion writes nothing but OUT, STATUS.{DONE, ERR, ERRCODE} and PHASE (R264). -/
theorem completeOk_sameBeyond (s : State) (u : Digits) : s.sameBeyondCompletion (s.completeOk u) :=
  ⟨rfl, rfl, rfl, rfl, rfl, rfl, rfl⟩

theorem completeError_sameBeyond (s : State) (c : ErrCode) : s.sameBeyondCompletion (s.completeError c) :=
  ⟨rfl, rfl, rfl, rfl, rfl, rfl, rfl⟩

/-- A successful completion keeps the invariant. -/
theorem completeOk_inv {s : State} (h : s.Inv) {u : Digits} (hu : u.length ≤ s.maxLen) : (s.completeOk u).Inv :=
  ⟨h.1, ⟨h.2.1.1, Memory.writeDigits_wf h.2.1.2 u (by omega)⟩, by simp [State.statusConsistent]⟩

/-- A completion with an error keeps the invariant. -/
theorem completeError_inv {s : State} (h : s.Inv) {c : ErrCode} (hc : c ≠ .ok) : (s.completeError c).Inv :=
  ⟨h.1, h.2.1, by simp [State.statusConsistent, hc]⟩

/-- Cells that two operand states hold alike are one digit sequence (R114). -/
theorem cells_congr {o p : Operands} {n a m : Nat} (h : ∀ k < n, o.inBuf.read k = p.inBuf.read k) (hm : a + m ≤ n) :
    o.cells a m = p.cells a m := by
  unfold Operands.cells
  apply List.map_congr_left
  intro k hk
  rw [h _ (by have := List.mem_range.mp hk; omega)]

end Sys2Proof.Machine
end

