-- ==== Sys2Proof/Laws/Step.lean ====
section
/-! SUPPORT. What one step can do (spec/00_scope.md rule R20, spec/20_memory.md rule R92), said once. -/

namespace Sys2Proof.Machine

/-- What the engine's turn can do: nothing while IDLE, else complete with OK or with a code (R263, R264). -/
theorem engineStep_cases (s : State) :
    (s.phase = .idle ∧ engineStep s = .next s) ∨
    (s.phase = .busy ∧ ∃ u, engineStep s = .next (s.completeOk u) ∧ u.length ≤ s.maxLen) ∨
    (s.phase = .busy ∧ ∃ c, engineStep s = .next (s.completeError c) ∧ c ≠ .ok) := by
  unfold engineStep
  cases hp : s.phase with
  | idle => exact .inl ⟨rfl, rfl⟩
  | busy =>
    simp only [completion, State.command_eq]
    cases hd : decode s.cur with
    | error e => exact .inr (.inr ⟨trivial, .opcode, rfl, by decide⟩)
    | ok i =>
      rcases exec_cases i s with ⟨u, he, -, -, hl, -⟩ | ⟨c, he, -, hc⟩
      · exact .inr (.inl ⟨trivial, u, he, hl⟩)
      · exact .inr (.inr ⟨trivial, c, he, hc⟩)

/-- What one step can do: the engine's turn, a bus access, a master's access outside the window, or the hard reset. -/
theorem step_cases (s : State) :
    (s.pending = [] ∧ step s = engineStep s) ∨
    (∃ rest, s.pending = .engine :: rest ∧ step s = engineStep s.popEvent) ∨
    (∃ a rest, s.pending = .access a :: rest ∧ step s = .next (s.popEvent.serve a)) ∨
    (∃ addr size op rest, s.pending = .master addr size op :: rest ∧
      step s = .next (s.popEvent.serveMaster addr size op)) ∨
    (∃ rest, s.pending = .hardReset :: rest ∧ step s = .next s.popEvent.resetDevice) := by
  unfold step
  cases h : s.pending with
  | nil => exact .inl ⟨rfl, rfl⟩
  | cons e rest =>
    cases e with
    | engine => exact .inr (.inl ⟨rest, rfl, rfl⟩)
    | access a => exact .inr (.inr (.inl ⟨a, rest, rfl, rfl⟩))
    | master addr size op => exact .inr (.inr (.inr (.inl ⟨addr, size, op, rest, rfl, rfl⟩)))
    | hardReset => exact .inr (.inr (.inr (.inr ⟨rest, rfl, rfl⟩)))

/-- Runs of the machine, one step at a time. -/
@[simp] theorem run_zero (s : State) : core.run 0 s = .next s := rfl

theorem run_succ {s t : State} (h : step s = .next t) (k : Nat) : core.run (k + 1) s = core.run k t := by
  have : core.step s = .next t := h
  simp [Host.Core.run, this]

/-- The step with an access first in the order. -/
theorem step_access {s : State} {a : Access} {rest : List Event} (h : s.pending = .access a :: rest) :
    step s = .next ({ s with pending := rest }.serve a) := by
  simp [step, h, eventStep, State.popEvent]

/-- The step with the engine's turn first in the order. -/
theorem step_engine {s : State} {rest : List Event} (h : s.pending = .engine :: rest) :
    step s = engineStep { s with pending := rest } := by
  simp [step, h, eventStep, State.popEvent]

/-- What a completion can do: end with OK, or with a code other than OK (R264). -/
theorem completion_cases (s : State) :
    (∃ u, completion s = .next (s.completeOk u)) ∨ ∃ c, c ≠ .ok ∧ completion s = .next (s.completeError c) := by
  unfold completion
  cases s.command with
  | error e => exact .inr ⟨.opcode, by decide, rfl⟩
  | ok i =>
    rcases exec_cases i s with ⟨u, h, -⟩ | ⟨c, h, -, hc⟩
    · exact .inl ⟨u, h⟩
    · exact .inr ⟨c, hc, h⟩

theorem engineStep_busy {s : State} (h : s.phase = .busy) : engineStep s = completion s := by simp [engineStep, h]

/-- A run of `k + m` steps is a run of `k` steps and one of `m`. -/
theorem run_add {s t : State} {k : Nat} (h : core.run k s = .next t) (m : Nat) : core.run (k + m) s = core.run m t := by
  induction k generalizing s with
  | zero =>
    cases h
    rw [Nat.zero_add]
  | succ k ih =>
    cases hs : step s with
    | next s' =>
      rw [run_succ hs] at h
      rw [show k + 1 + m = (k + m) + 1 by omega, run_succ hs]
      exact ih h
    | fault f => exact nomatch f
    | refused r =>
      have hc : core.step s = .refused r := hs
      simp [Host.Core.run, hc] at h

end Sys2Proof.Machine
end

