-- ==== Sys2Proof/Laws/HostProgram.lean ====
section
/-! SUPPORT. What one turn of a host does (spec/30_encoding.md rule R117). -/

namespace Sys2Proof.Machine

/-- A host turn at the line `W <target>, <literal>` is the machine's access, logged (R15, R117). -/
theorem hostTurn_write {b : Bench} {t : Target} {v : Word} (hl : b.lines[b.line]? = some (.write t (.lit v))) :
    b.hostTurn =
      .next { b.advance with
        dev := b.dev.serve (busWrite (targetOffset t) v),
        log := b.log ++ [{ dir := .w, offset := targetOffset t, data := v }] } := by
  have hs : step { b.dev with pending := .access (busWrite (targetOffset t) v) :: b.dev.pending } =
      .next (b.dev.serve (busWrite (targetOffset t) v)) := by rw [step_access rfl]
  simp [Bench.hostTurn, hl, Bench.runWrite, Bench.value, Bench.access, hs]

/-- R118: byte `b` of LDKEY's word `w` is the byte `4w + b` of the string, 0 past its end. -/
theorem keyWord_byte (s : List Byte) (w : Nat) {b : Nat} (hb : b < 4) :
    (keyWord s w).extractLsb' (8 * b) 8 = s.getD (4 * w + b) 0 := by
  apply BitVec.eq_of_toNat_eq
  have h0 := (s.getD (4 * w) 0).isLt
  have h1 := (s.getD (4 * w + 1) 0).isLt
  have h2 := (s.getD (4 * w + 2) 0).isLt
  have h3 := (s.getD (4 * w + 3) 0).isLt
  simp only [keyWord, beNat, List.foldl, BitVec.extractLsb'_toNat, BitVec.toNat_ofNat, Nat.shiftRight_eq_div_pow]
  have hcase : b = 0 ∨ b = 1 ∨ b = 2 ∨ b = 3 := by omega
  rcases hcase with rfl | rfl | rfl | rfl <;> (try simp only [Nat.add_zero]) <;> omega

end Sys2Proof.Machine
end

