-- ==== Sys2Proof/Laws/PerInstr.lean ====
section
/-! SUPPORT. Facts about each command as syntax, one lemma per constructor (family RoundTrip: the encoding). -/

namespace Sys2Proof.Laws.RoundTrip

/-- The command is well formed, its word is legal with RSVD = 0 and OP from the opcode map, and decodes to it
(spec/30_encoding.md rules R110, R111). -/
def Statement (i : Instr) : Prop :=
  i.wellFormed = true ∧ legalCommandWord (encode i) = true ∧ rsvdField (encode i) = 0 ∧ opField (encode i) = opcode i ∧
    decode (encode i) = .ok i

theorem nop : Statement .nop := ⟨rfl, rfl, rfl, rfl, rfl⟩
theorem enc : Statement .enc := ⟨rfl, rfl, rfl, rfl, rfl⟩
theorem dec : Statement .dec := ⟨rfl, rfl, rfl, rfl, rfl⟩
theorem rfn : Statement .rfn := ⟨rfl, rfl, rfl, rfl, rfl⟩
theorem dadd : Statement .dadd := ⟨rfl, rfl, rfl, rfl, rfl⟩
theorem dsub : Statement .dsub := ⟨rfl, rfl, rfl, rfl, rfl⟩

end Sys2Proof.Laws.RoundTrip
end

