-- ==== Sys2Proof/Laws/Sha1.lean ====
section
/-! SUPPORT. The laws of byte strings and of the SHA-1 message schedule (spec/41_hmac_sha1.md rules R161 to R165). -/

namespace Sys2Proof.Machine

theorem beNat_append (x y : List Byte) : beNat (x ++ y) = beNat x * 256 ^ y.length + beNat y := by
  rw [beNat, List.foldl_append, beNat_foldl]
  rfl

/-- R12: `BE32` read big-endian is the number. -/
theorem beNat_be32 {v : Nat} (hv : v < 2 ^ 32) : beNat (be32 v) = v := by
  simp [be32, le32, beNat, BitVec.toNat_ofNat]
  omega

@[simp] theorem sha1Words_length (n : Nat) (m : List Byte) : (sha1Words n m).length = n := by
  induction n generalizing m with
  | zero => rfl
  | succ n ih => simp [sha1Words, ih]

/-- R162: word `t` of a block is its bytes `4t .. 4t+3` read big-endian. -/
theorem sha1Words_getD {n : Nat} (m : List Byte) {t : Nat} (h : t < n) :
    (sha1Words n m).getD t 0 = BitVec.ofNat 32 (beNat ((m.drop (4 * t)).take 4)) := by
  induction n generalizing m t with
  | zero => omega
  | succ n ih =>
    cases t with
    | zero => simp [sha1Words]
    | succ t =>
      rw [sha1Words, List.getD_cons_succ, ih _ (by omega), List.drop_drop]
      congr 4
      ring

@[simp] theorem sha1Extend_length (n : Nat) (ws : List Word) : (sha1Extend n ws).length = n + ws.length := by
  induction n generalizing ws with
  | zero => simp [sha1Extend]
  | succ n ih =>
    simp [sha1Extend, ih]
    omega

/-- The schedule's earlier words stay where they are (R165). -/
theorem sha1Extend_reverse (n : Nat) (ws : List Word) : ∃ t, (sha1Extend n ws).reverse = ws.reverse ++ t := by
  induction n generalizing ws with
  | zero => exact ⟨[], by simp [sha1Extend]⟩
  | succ n ih =>
    obtain ⟨t, ht⟩ := ih (rotl 1 (ws.getD 2 0 ^^^ ws.getD 7 0 ^^^ ws.getD 13 0 ^^^ ws.getD 15 0) :: ws)
    exact ⟨_, by rw [sha1Extend, ht, List.reverse_cons, List.append_assoc]⟩

/-- R162: the blocks of a padded message. -/
theorem sha1Blocks_eq_map (n : Nat) (p : List Byte) :
    sha1Blocks n p = (List.range n).map (fun i => (p.drop (64 * i)).take 64) := by
  induction n generalizing p with
  | zero => rfl
  | succ n ih =>
    rw [sha1Blocks, ih, List.range_succ_eq_map]
    simp only [List.map_cons, List.map_map, Nat.mul_zero, List.drop_zero, List.cons.injEq, true_and]
    apply List.map_congr_left
    intro i _
    simp only [Function.comp, List.drop_drop]
    congr 2
    omega

/-- R165: the steps of the compression, one for each schedule word, by their index. -/
theorem sha1Steps_eq_foldl (ws : List Word) (t : Nat) (h : HashWords) :
    sha1Steps t ws h = (List.range ws.length).foldl (fun g k => sha1Step (t + k) (ws.getD k 0) g) h := by
  induction ws generalizing t h with
  | nil => rfl
  | cons w ws ih =>
    rw [sha1Steps, ih, List.length_cons, List.range_succ_eq_map, List.foldl_cons, List.foldl_map]
    congr 1
    funext g k
    simp [Nat.add_assoc, Nat.add_comm 1]

end Sys2Proof.Machine
end

