-- ==== Sys2Proof/Tests/Slice0.lean ====
section
/-! SUPPORT. Tests of the model against the spec's own vectors (spec/95_test_vectors.md, the examples of the rules), and
for every statement with hypotheses a state and operands that meet them (the theorems witness_…). -/

namespace Sys2Proof.Tests

open Sys2Proof Sys2Proof.Machine Sys2Proof.Spec

/-! ### Helpers -/

/-- The bytes of "secret-key" (95_test_vectors.md). -/
def secretKey : List Byte := [0x73, 0x65, 0x63, 0x72, 0x65, 0x74, 0x2d, 0x6b, 0x65, 0x79]

/-- KEY after `LDKEY "secret-key"` from reset (R119). -/
def secretWords : Vector Word 16 :=
  ((Vector.replicate 16 0#32).set 0 0x72636573#32).set 1 0x6b2d7465#32 |>.set 2 0x00007965#32

/-- The operands of the base state of 95_test_vectors.md §3.5. -/
def baseOps : Operands :=
  { radix := 10, rounds := 10, len := 4, ridx := 0, olen := 3, alen := 2, blen := 2, keylen := 10, key := secretWords,
    inBuf := [(0, 1), (1, 2), (2, 3), (3, 4)] }

/-- A state after reset whose operands are `o`. -/
def withOps (o : Operands) : State := { State.reset with ops := o }

/-- The base state of 95_test_vectors.md §3.5. -/
def base : State := withOps baseOps

/-- The base state with ENC accepted. -/
def running : State := base.accept 1

/-- The code and the digits a command gives on some operands, with the default MAX_LEN. -/
def gives (i : Instr) (o : Operands) : Result := result i 256 o

/-- STATUS after a step on `s`. -/
def statusAfter (s : State) : Option Word :=
  match step s with
  | .next t => some t.statusWord
  | .fault _ => none
  | .refused _ => none

/-- The answer to an access to `s`. -/
def answers (s : State) (a : Access) : Option BusAnswer := (s.serve a).resp

/-! ### Well-formedness: each check refuses an ill-formed term -/

theorem test_wf_commandWord : legalCommandWord 5 = true ∧ legalCommandWord 6 = false := by decide
theorem test_wf_maxLen : legalMaxLen 1 = false ∧ legalMaxLen 2 = true ∧ legalMaxLen 256 = true ∧ legalMaxLen 257 = false := by
  decide
theorem test_wf_target :
    (Target.key 16).wellFormed = false ∧ (Target.inp 256).wellFormed = false ∧ (Target.out 256).wellFormed = false ∧
      (Target.key 15).wellFormed = true ∧ (Target.hex 0xFFF).wellFormed = true ∧ (Target.reg .cph).wellFormed = true := by
  decide
theorem test_wf_line :
    (Line.write (.key 16) (.lit 0)).wellFormed = false ∧ (Line.read (.out 256) .s).wellFormed = false ∧
      (Line.label (.own 0)).wellFormed = true ∧ (Line.bne .s (.lit 2) (.lit 2) (.own 0)).wellFormed = true := by decide
theorem test_wf_pseudo :
    (Pseudo.plain (.write (.inp 256) (.lit 0))).wellFormed = false ∧
      (Pseudo.ldkey (List.replicate 65 0)).wellFormed = false ∧ (Pseudo.ldin 255 [.lit 0, .lit 0]).wellFormed = false ∧
      (Pseudo.rdout 250 7).wellFormed = false ∧ (Pseudo.ldkey secretKey).wellFormed = true ∧
      (Pseudo.cmd .enc).wellFormed = true ∧ (Pseudo.run .dec).wellFormed = true ∧ Pseudo.wait.wellFormed = true ∧
      Pseudo.ack.wellFormed = true ∧ Pseudo.srst.wellFormed = true := by decide
theorem test_wf_instr : [Instr.nop, .enc, .dec, .rfn, .dadd, .dsub].all Instr.wellFormed = true := by decide

/-! ### Decoding: the words of the opcode map (R111), bit by bit, and the reserved ones (R113) -/

theorem test_decode_nop : decode 0b00000000000000000000000000000000#32 = .ok .nop := by decide
theorem test_decode_enc : decode 0b00000000000000000000000000000001#32 = .ok .enc := by decide
theorem test_decode_dec : decode 0b00000000000000000000000000000010#32 = .ok .dec := by decide
theorem test_decode_rfn : decode 0b00000000000000000000000000000011#32 = .ok .rfn := by decide
theorem test_decode_dadd : decode 0b00000000000000000000000000000100#32 = .ok .dadd := by decide
theorem test_decode_dsub : decode 0b00000000000000000000000000000101#32 = .ok .dsub := by decide
theorem test_decode_reserved :
    [0x6#32, 0xF#32].all (fun w => decide (decode w = .error .opReserved)) = true ∧
      [0x10#32, 0x17#32, 0x80000001#32].all (fun w => decide (decode w = .error .rsvdSet)) = true := by decide
theorem test_tableWord : decodeTableWord 32 5 = some .dsub ∧ decodeTableWord 32 6 = none ∧ decodeTableWord 8 1 = some .enc := by
  decide

/-! ### SHA-1, HMAC and CPH (95_test_vectors.md §1, §3.2) -/

/-- R166: SHA1("abc"). -/
theorem test_sha1_abc :
    sha1 [0x61, 0x62, 0x63] =
      [0xa9, 0x99, 0x3e, 0x36, 0x47, 0x06, 0x81, 0x6a, 0xba, 0x3e, 0x25, 0x71, 0x78, 0x50, 0xc2, 0x6c, 0x9c, 0xd0, 0xd8,
        0x9d] := by decide +kernel

/-- R171: key "Jefe", message "what do ya want for nothing?". -/
theorem test_hmac_jefe :
    hmacSha1 [0x4a, 0x65, 0x66, 0x65]
        [0x77, 0x68, 0x61, 0x74, 0x20, 0x64, 0x6f, 0x20, 0x79, 0x61, 0x20, 0x77, 0x61, 0x6e, 0x74, 0x20, 0x66, 0x6f, 0x72,
          0x20, 0x6e, 0x6f, 0x74, 0x68, 0x69, 0x6e, 0x67, 0x3f] =
      [0xef, 0xfc, 0xdf, 0x6a, 0xe5, 0xeb, 0x2f, 0xa2, 0xd2, 0x74, 0x16, 0xd5, 0xf1, 0x84, 0xdf, 0x9c, 0x25, 0x9a, 0x7c,
        0x79] := by decide +kernel

/-- §3.2: the radixes where `r^k` is `2^160` exactly, and the bounds. -/
theorem test_cph : [2, 10, 32, 1024, 2 ^ 20, 2 ^ 32 - 1].map cph = [160, 48, 32, 16, 8, 5] := by decide +kernel

/-! ### The commands, at most two each -/

/-- R267, §3.6: NOP on the reset state leaves STATUS = 2. -/
theorem test_nop : statusAfter (State.reset.withFetchWord 32 0) = some 2#32 := by decide

/-- §3.5: NOP checks nothing. -/
theorem test_nop_checks_nothing : gives .nop { baseOps with radix := 0, keylen := 999, len := 0 } = .ok [] := by decide

/-- R237, §2.1: the source's `Encrypt("aaabbb") == "acbacc"`. -/
theorem test_enc_source :
    gives .enc { baseOps with radix := 3, len := 6, inBuf := [(3, 1), (4, 1), (5, 1)] } = .ok [0, 2, 1, 0, 2, 2] := by
  decide +kernel

/-- §3.5: the length is checked before the digits. -/
theorem test_enc_length_first : gives .enc { baseOps with len := 1, inBuf := [(0, 10)] } = .error .length := by decide

/-- R238, §2.2: the source's `Decrypt(6103) == 1234`. -/
theorem test_dec_source :
    gives .dec { baseOps with inBuf := [(0, 6), (1, 1), (3, 3)] } = .ok [1, 2, 3, 4] := by decide +kernel

/-- §3.4: odd LEN and odd ROUNDS, where DEC splits at `n - h`. -/
theorem test_dec_odd_split :
    gives .dec { baseOps with rounds := 1, len := 3, inBuf := [(0, 2), (1, 3), (2, 2)] } = .ok [1, 2, 3] := by
  decide +kernel

/-- R211, §3.3: 50 digits need the second digest. -/
theorem test_rfn_rehash :
    gives .rfn { baseOps with len := 2, olen := 50 } =
      .ok [5, 2, 3, 2, 0, 4, 7, 7, 1, 5, 2, 1, 7, 3, 3, 8, 7, 0, 7, 1, 3, 7, 6, 2, 6, 5, 6, 5, 9, 6, 9, 0, 7, 8, 9, 4, 0, 5,
        3, 5, 8, 6, 0, 3, 2, 0, 7, 1, 8, 4] := by decide +kernel

/-- §3.5: the digits are checked before the packing. -/
theorem test_rfn_digit_first :
    gives .rfn { baseOps with ridx := 0x80000000, inBuf := [(0, 10), (1, 2), (2, 3), (3, 4)] } = .error .digit ∧
      gives .rfn { baseOps with ridx := 0x80000000, olen := 0 } = .error .encoding := by decide

/-- R143, §3.1: no carry between positions. -/
theorem test_dadd :
    gives .dadd { baseOps with alen := 3, blen := 3, inBuf := [(0, 9), (1, 5), (3, 3), (4, 7), (5, 9)] } = .ok [2, 2, 9] := by
  decide

/-- §3.1: the sum of two digits needs 33 bits. -/
theorem test_dadd_wide :
    gives .dadd { baseOps with radix := 0xFFFFFFFF, alen := 1, blen := 1, inBuf := [(0, 0xFFFFFFFE), (1, 0xFFFFFFFE)] } =
      .ok [4294967293] := by decide

/-- R144, §3.1: the differences are never negative. -/
theorem test_dsub :
    gives .dsub { baseOps with alen := 3, blen := 3, inBuf := [(0, 9), (1, 5), (3, 3), (4, 7), (5, 9)] } = .ok [6, 8, 1] := by
  decide

/-- §3.5: the sum of the lengths does not wrap, and the cells of `b` are checked too. -/
theorem test_dsub_checks :
    gives .dsub { baseOps with alen := 0xFFFFFFFF, blen := 1 } = .error .length ∧
      gives .dsub { baseOps with inBuf := [(0, 1), (1, 2), (2, 3), (3, 10)] } = .error .digit := by decide

/-! ### Bus, control and status (95_test_vectors.md §3.6) -/

theorem test_read_id : answers State.reset (busRead 0x000#12) = some (.read .okay 0x46465801#32) := by decide
theorem test_read_cph : answers State.reset (busRead 0x030#12) = some (.read .okay 48#32) := by decide +kernel
theorem test_read_key : answers base (busRead 0x040#12) = some (.read .okay 0#32) := by decide
theorem test_read_misaligned : answers base (busRead 0x002#12) = some (.read .slverr 0#32) := by decide
theorem test_byte_write : (base.serve { offset := 0x010, size := .byte, op := .write 0b0001 5 }) =
    { base with resp := some (.write .slverr) } := by decide
theorem test_status_after_digit_error :
    statusAfter ((withOps { baseOps with radix := 4 }).withFetchWord 32 1) = some 0x606#32 := by decide
theorem test_busy_write_len :
    (running.serve (busWrite 0x018#12 3)).ops.len = 4#32 ∧ (running.serve (busWrite 0x018#12 3)).statusWord = 0x9#32 := by
  decide
theorem test_busy_write_cmd :
    (running.serve (busWrite 0x00C#12 2)).cur = 1#32 ∧ (running.serve (busWrite 0x00C#12 2)).ovr = true := by decide
theorem test_ack_keeps_errcode :
    (({ base.completeError .digit with ovr := true } : State).serve (busWrite 0x008#12 0xE)).statusWord = 0x600#32 := by
  decide
theorem test_irq_falls_on_ack :
    ({ base.completeOk [] with ie := true } : State).irq = true ∧
      (({ base.completeOk [] with ie := true } : State).serve (busWrite 0x008#12 2)).irq = false := by decide
theorem test_soft_reset : running.serve (busWrite 0x004#12 3) = { State.reset with resp := some (.write .okay) } := by decide

/-! ### Host programs (R117) -/

/-- A host at the line `BNE s, 0xFF, o_0, end` with the label two lines on, that has read `a` as `s` and `b` as `o_0`. -/
def branching (a b : Word) : Bench :=
  { lines := [.bne .s (.lit 0xFF) (.name (.o 0)) (.own 0), .read (.reg .id) .s, .label (.own 0)], line := 0,
    names := [(.s, a), (.o 0, b)], log := [], dev := base }

/-- The line a host's turn leads to. -/
def lineAfter (b : Bench) : Option Nat :=
  match b.hostTurn with
  | .next b' => some b'.line
  | .fault _ => none
  | .refused _ => none

/-- BNE compares the masked datum with another read's, and goes to the label if they differ. -/
theorem test_bne_name : lineAfter (branching 0x105 0x05) = some 1 ∧ lineAfter (branching 0x105 0x04) = some 2 := by decide

/-- BNE against a command's mnemonic, which means its command word. -/
theorem test_bne_mnemonic :
    lineAfter { branching 0x5 0 with lines := [.bne .s (.lit 0xF) (.mnemonic .dsub) (.own 0)] } = some 1 ∧
      lineAfter { branching 0x4 0 with lines := [.bne .s (.lit 0xF) (.mnemonic .dsub) (.own 0), .read (.reg .id) .s, .label (.own 0)] } = some 2 := by
  decide

/-- BNE under a mask that an earlier read named: under 0x1, 0x103 has the value 0x1 and 0x102 has not. -/
theorem test_bne_mask_name :
    lineAfter { branching 0x103 0x1 with lines := [.bne .s (.name (.o 0)) (.lit 0x1) (.own 0)] } = some 1 ∧
      lineAfter { branching 0x102 0x1 with lines := [.bne .s (.name (.o 0)) (.lit 0x1) (.own 0), .read (.reg .id) .s, .label (.own 0)] } = some 2 := by
  decide

/-- LDIN's lines are those of R118, an earlier read's datum among its elements. -/
theorem test_ldin :
    expandPseudo 0 (.ldin 3 [.lit 7, .name (.o 0)]) = [.write (.inp 3) (.lit 7), .write (.inp 4) (.name (.o 0))] := by decide

/-! ### Witnesses: states and operands that meet the hypotheses of each statement -/

theorem base_inv : base.Inv := by
  simp only [State.Inv, State.buffersWf, State.statusConsistent]
  decide

theorem running_inv : running.Inv := by
  simp only [State.Inv, State.buffersWf, State.statusConsistent]
  decide

theorem base_feistelReady : feistelReady base := by
  simp only [feistelReady, inDigits]
  decide

theorem base_roundReady : roundReady base := by
  simp only [roundReady, inDigits]
  decide

theorem witness_DecodeFollowsTheFields :
    (0x10#32 : Word).extractLsb' 4 28 ≠ 0#28 ∧
      [0#32, 1#32, 2#32, 3#32, 4#32, 5#32, 6#32, 15#32].map (fun w : Word => (w.extractLsb' 4 28, (w.extractLsb' 0 4).toNat)) =
        [(0, 0), (0, 1), (0, 2), (0, 3), (0, 4), (0, 5), (0, 6), (0, 15)] := by decide

theorem witness_StepRunsTheAcceptedCommand :
    (running.phase = .busy ∧ decode running.cur = .ok .enc ∧ running.pending = []) ∧
    (running.phase = .busy ∧ ({ running with pending := [.engine] } : State).pending = [.engine]) ∧
    (decode (base.accept 6).cur = .error .opReserved ∧ (base.accept 6).phase = .busy) ∧
    (base.phase = .idle ∧ ({ base with pending := [.engine] } : State).pending = [.engine]) ∧
    ({ base with pending := [.access (busRead 0)] } : State).pending = [.access (busRead 0)] ∧
    ({ base with pending := [.master 0 .word .read] } : State).pending = [.master 0 .word .read] ∧
    ({ base with pending := [.hardReset] } : State).pending = [.hardReset] := by decide

theorem witness_ReservedWordCompletesWithErrOpcode :
    base.phase = .idle ∧ (0x10#32 : Word).extractLsb' 4 28 ≠ 0#28 ∧ 6 ≤ ((6#32 : Word).extractLsb' 0 4).toNat ∧
      ({ base with pending := [.access (busWrite 0x00C#12 6), .engine] } : State).pending =
        [.access (busWrite 0x00C#12 6), .engine] := by decide

theorem witness_DaddCompletesWithTheSums : base.Inv ∧ arithReady base := by
  refine ⟨base_inv, ?_⟩
  simp only [arithReady, inDigits]
  decide

/-- A subtraction that borrows and one that does not, at equal digits. -/
theorem witness_DsubCompletesWithTheDifferences : base.Inv ∧ arithReady base ∧ inCell base 0 < inCell base 2 := by
  refine ⟨base_inv, ?_⟩
  simp only [arithReady, inDigits]
  decide

theorem witness_RfnCompletesWithTheClosedForm :
    base.Inv ∧ roundReady base ∧ base.ops.ridx.toNat ≤ 2 ^ 31 - 1 ∧
      ∀ k < base.ops.len.toNat, inCell base k ≤ 2 ^ 31 - 1 :=
  ⟨base_inv, base_roundReady, by decide, by decide⟩

theorem witness_RfnReportsWhatItCannotPack :
    (roundReady (withOps { baseOps with ridx := 0x80000000 }) ∧
      2 ^ 31 - 1 < (withOps { baseOps with ridx := 0x80000000 }).ops.ridx.toNat) ∧
    (roundReady (withOps { baseOps with radix := 0xFFFFFFFF, inBuf := [(3, 0x80000000)] }) ∧
      ∃ k < 4, 2 ^ 31 - 1 < inCell (withOps { baseOps with radix := 0xFFFFFFFF, inBuf := [(3, 0x80000000)] }) k) := by
  simp only [roundReady, inDigits]
  decide

theorem witness_EncCompletesWithTheCiphertext :
    base.Inv ∧ feistelReady base ∧ base.ops.radix.toNat ≤ 2 ^ 31 ∧ base.ops.rounds.toNat ≤ 2 ^ 31 :=
  ⟨base_inv, base_feistelReady, by decide, by decide⟩

theorem witness_DecCompletesWithThePlaintext :
    base.Inv ∧ feistelReady base ∧ base.ops.radix.toNat ≤ 2 ^ 31 ∧ base.ops.rounds.toNat ≤ 2 ^ 31 :=
  ⟨base_inv, base_feistelReady, by decide, by decide⟩

theorem witness_CipherOutcomeForEveryRadix : base.Inv ∧ feistelReady base := ⟨base_inv, base_feistelReady⟩

/-- A state at each check's boundary, with the codes of 95_test_vectors.md §3.5, and one that passes them all. -/
theorem witness_ChecksRunInOrder :
    failsWith (checks .enc (withOps { baseOps with keylen := 65, radix := 1 })) .keylen ∧
    failsWith (checks .rfn (withOps { baseOps with radix := 1 })) .radix ∧
    failsWith (checks .dec (withOps { baseOps with rounds := 0, len := 1 })) .rounds ∧
    failsWith (checks .enc (withOps { baseOps with len := 257 })) .length ∧
    failsWith (checks .dadd (withOps { baseOps with alen := 200, blen := 57 })) .length ∧
    failsWith (checks .dsub (withOps { baseOps with radix := 4 })) .digit ∧
    (∀ e, ¬failsWith (checks .enc base) e) ∧ decode (base.accept 6).cur = .error .opReserved := by
  refine ⟨?_, ?_, ?_, ?_, ?_, ?_, fun e => ?_, by decide⟩
  all_goals simp only [checks, checks.feistelChecks, checks.arithChecks, failsWith]
  all_goals first | decide | (cases e <;> decide)

/-- A radix above `2^31` and digits that no round can pack. -/
def unpackable : State := withOps { baseOps with radix := 0xFFFFFFFF, rounds := 1, len := 2, inBuf := [(0, 0x80000000), (1, 0x80000000)] }

/-- Completions with the causes of ROUNDS and, for each of ENC, DEC and RFN, of ENCODING. -/
theorem witness_CodesHaveTheirCause :
    (∃ t, exec .enc (withOps { baseOps with rounds := 0 }) = .next t ∧ t.errcode = .rounds) ∧
      (∃ t, exec .enc unpackable = .next t ∧ t.errcode = .encoding) ∧
      (∃ t, exec .dec unpackable = .next t ∧ t.errcode = .encoding) ∧
      ∃ t, exec .rfn unpackable = .next t ∧ t.errcode = .encoding :=
  ⟨⟨_, rfl, by decide⟩, ⟨_, rfl, by decide⟩, ⟨_, rfl, by decide⟩, ⟨_, rfl, by decide⟩⟩

theorem witness_ErrorRecordsOnlyItsCode : ∃ t, completion (base.accept 0x17) = .next t ∧ t.errcode ≠ .ok :=
  ⟨_, rfl, by decide⟩

theorem witness_CommandFrame : base.Inv ∧ (∃ t, exec .dadd base = .next t ∧ t.errcode = .ok) ∧
    ∃ t, exec .dsub (withOps { baseOps with radix := 4 }) = .next t ∧ t.errcode = .digit :=
  ⟨base_inv, ⟨_, rfl, by decide⟩, ⟨_, rfl, by decide⟩⟩

/-- Two states that agree on what DADD reads and differ in KEYLEN, LEN and a cell it does not read. -/
theorem witness_ResultReadsOnlyItsOperands :
    base.Inv ∧ (withOps { baseOps with keylen := 65, len := 9, inBuf := baseOps.inBuf ++ [(4, 99)] }).Inv ∧
      agreeOn .dadd base.ops { baseOps with keylen := 65, len := 9, inBuf := baseOps.inBuf ++ [(4, 99)] } ∧
      ∃ t, exec .dadd base = .next t ∧ t.errcode = .ok := by
  refine ⟨base_inv, ?_, ?_, ⟨_, rfl, by decide⟩⟩
  · simp only [State.Inv, State.buffersWf, State.statusConsistent]
    decide
  · simp only [agreeOn, agreeOn.agreeArith]
    decide

theorem witness_DigitAddIsElementwise : 2 ≤ 10 ∧ 0 < min ([9] : Digits).length ([3, 4] : Digits).length := by decide

theorem witness_DigitSubIsNormalized :
    2 ≤ 10 ∧ 0 < min ([0] : Digits).length ([9, 4] : Digits).length ∧ ([0] : Digits).getD 0 0 < 10 ∧
      ([9, 4] : Digits).getD 0 0 < 10 := by decide

theorem witness_DigitAddAndSubCancel :
    (∀ d ∈ ([0, 9] : Digits), d < 10) ∧ (∀ d ∈ ([9, 9] : Digits), d < 10) ∧
      ([0, 9] : Digits).length = ([9, 9] : Digits).length := by decide

theorem witness_ByteOrders : 0 < 2 ^ 32 ∧ 2 ^ 32 - 1 < 2 ^ 32 := by decide

/-- Messages on both sides of the point where the padding takes another block. -/
theorem witness_Sha1PaddingIsTheShortest :
    (List.replicate 55 (0#8 : Byte)).length < 2 ^ 61 ∧ (List.replicate 56 (0#8 : Byte)).length < 2 ^ 61 := by decide

theorem witness_Sha1ScheduleFollowsTheRecurrence :
    (List.replicate 64 (0#8 : Byte)).length = 64 ∧ 15 < 16 ∧ 16 ≤ 16 ∧ 16 < 80 ∧ 16 ≤ 79 ∧ 79 < 80 := by decide

/-- The empty key, a full one, and "secret-key" with 54 zero bytes (95_test_vectors.md §1). -/
theorem witness_DigestShapeAndKeyPadding :
    ([] : List Byte).length ≤ 64 ∧ (List.replicate 64 (1#8 : Byte)).length ≤ 64 ∧ secretKey.length + 54 ≤ 64 := by decide

/-- The ends of every range of rotations and steps. -/
theorem witness_Sha1IsTheRulesLoop :
    0 < 1 ∧ 31 < 32 ∧ 0 ≤ 19 ∧ 20 ≤ 20 ∧ 39 ≤ 39 ∧ 40 ≤ 40 ∧ 59 ≤ 59 ∧ 60 ≤ 60 ∧ 79 ≤ 79 ∧
      (List.replicate 64 (0#8 : Byte)).length = 64 := by decide

theorem witness_BaseMessageIsThePackedValues :
    (∀ v ∈ (2 ^ 31 - 1) :: ([0] : Digits), v ≤ 2 ^ 31 - 1) ∧ ∃ v ∈ 0 :: ([2 ^ 31] : Digits), 2 ^ 31 - 1 < v := by decide

theorem witness_CphIsTheLargestPower : 2 ≤ 2 ∧ 2 ≤ 2 ^ 32 - 1 ∧ 2 ^ 32 - 1 < 2 ^ 32 := by decide

theorem witness_RoundFnIsTheClosedForm :
    2 ≤ 2 ^ 32 - 1 ∧ 2 ^ 32 - 1 < 2 ^ 32 ∧ ∀ v ∈ (2 ^ 31 - 1) :: ([1] : Digits), v ≤ 2 ^ 31 - 1 := by decide

theorem digits123 : digitHalves 10 (splitAt (([1, 2, 3] : Digits).length / 2) [1, 2, 3]) :=
  digitHalves_splitAt (by decide)

/-- Rounds 0, 1 and 2 of three digits, with the next round's output. -/
theorem witness_HalvesKeepTheirLengths :
    (∀ d ∈ ([1, 2, 3] : Digits), d < 10) ∧
      (∀ n ≤ 2, ∃ g, encRounds secretKey 10 n (splitAt (([1, 2, 3] : Digits).length / 2) [1, 2, 3]) = .ok g) ∧
      (∃ f, roundFn secretKey 10 0 [2, 3] 1 = .ok f) ∧ ∃ w, encrypt secretKey 10 1 [1, 2, 3] = .ok w := by
  refine ⟨by decide, fun n hn => encRounds_ok _ (by decide) (by decide) (by omega) digits123, ?_, ?_⟩
  · exact ⟨_, rfl⟩
  · obtain ⟨g, hg⟩ := encRounds_ok secretKey (by decide : 2 ≤ 10) (by decide) (by decide : 1 ≤ 2 ^ 31) digits123
    exact ⟨g.1 ++ g.2, by rw [encrypt, hg]; rfl⟩

theorem witness_DecryptInvertsEncrypt :
    2 ≤ 10 ∧ 10 < 2 ^ 32 ∧ 1 ≤ 1 ∧ 2 ≤ ([1, 2, 3] : Digits).length ∧ (∀ d ∈ ([1, 2, 3] : Digits), d < 10) ∧
      (∀ d ∈ ([2, 3, 2] : Digits), d < 10) := by decide

theorem witness_CipherKeepsShape : (∀ d ∈ ([1, 2, 3] : Digits), d < 10) ∧ ∃ w, encrypt secretKey 10 1 [1, 2, 3] = .ok w :=
  ⟨by decide, witness_HalvesKeepTheirLengths.2.2.2⟩

/-- The premises at their bounds, and for each of the two equivalences a sequence whose first round does not pack and one
of which no round is at fault. -/
theorem witness_EncodingFailsExactlyWhenSomethingDoesNotPack :
    (∀ d ∈ ([0, 0] : Digits), d < 2 ^ 31) ∧ 2 ≤ 2 ^ 31 ∧ 2 ^ 31 < 2 ^ 32 ∧ 2 ^ 31 < 2 ^ 31 + 1 ∧ 2 ^ 31 ≤ 2 ^ 31 ∧
      (∀ d ∈ ([2 ^ 31, 2 ^ 31] : Digits), d < 2 ^ 32 - 1) ∧ encryptFails secretKey (2 ^ 32 - 1) 1 [2 ^ 31, 2 ^ 31] ∧
      decryptFails secretKey (2 ^ 32 - 1) 1 [2 ^ 31, 2 ^ 31] ∧ ¬encryptFails secretKey 10 1 [1, 2] ∧
      ¬decryptFails secretKey 10 1 [1, 2] := by
  refine ⟨by decide, by decide, by decide, by decide, by decide, by decide, ?_, ?_, ?_, ?_⟩
  · exact ⟨0, by decide, ([2 ^ 31], [2 ^ 31]), rfl, 2 ^ 31, by decide, by decide⟩
  · exact ⟨0, by decide, ([2 ^ 31], [2 ^ 31]), rfl, 2 ^ 31, by decide, by decide⟩
  · rintro ⟨i, hi, h, he, x, hx, hlt⟩
    obtain rfl : i = 0 := by omega
    cases he
    exact (by decide : ∀ y ∈ ([0, 2] : Digits), ¬2 ^ 31 - 1 < y) x hx hlt
  · rintro ⟨i, hi, h, he, x, hx, hlt⟩
    obtain rfl : i = 0 := by omega
    cases he
    exact (by decide : ∀ y ∈ ([0, 1] : Digits), ¬2 ^ 31 - 1 < y) x hx hlt

/-- One round on [1,2,3] (95_test_vectors.md §3.4), then the copy of OUT to IN. -/
theorem witness_EncCopyDecRoundTrip :
    ∃ s t u : State, s.Inv ∧ feistelReady s ∧ exec .enc s = .next t ∧ t.errcode = .ok ∧
      u.ops = { t.ops with inBuf := u.ops.inBuf } ∧ u.maxLen = t.maxLen ∧ u.Inv ∧
      ∀ k < s.ops.len.toNat, u.ops.inBuf.read k = t.outBuf.read k := by
  have hr : result .enc 256 { baseOps with rounds := 1, len := 3 } = .ok [2, 3, 2] := by decide +kernel
  refine ⟨withOps { baseOps with rounds := 1, len := 3 }, (withOps { baseOps with rounds := 1, len := 3 }).completeOk [2, 3, 2],
    withOps { baseOps with rounds := 1, len := 3, inBuf := [(0, 2), (1, 3), (2, 2)] }, ?_, ?_, ?_, rfl, rfl, rfl, ?_, ?_⟩
  · simp only [State.Inv, State.buffersWf, State.statusConsistent]
    decide
  · simp only [feistelReady, inDigits]
    decide
  · rw [exec_eq]
    exact congrArg (fun r => Host.Outcome.next (State.complete _ r)) hr
  · simp only [State.Inv, State.buffersWf, State.statusConsistent]
    decide
  · decide

theorem witness_AcceptanceLatchesTheCommand : base.phase = .idle := by decide

theorem witness_IdleWritesStore :
    base.phase = .idle ∧ base.maxLen ≤ 256 ∧ 0 < 16 ∧ 15 < 16 ∧ 0 < base.maxLen ∧ 255 < base.maxLen ∧ base.buffersWf ∧
      (1#32 : Word).getLsbD 1 = false :=
  ⟨by decide, by decide, by decide, by decide, by decide, by decide, base_inv.2.1, by decide⟩

theorem witness_WritesWhileBusyAreLost :
    running.phase = .busy ∧ running.maxLen ≤ 256 ∧ 0x010#12 ∈ operandOffsets ∧ 0x02C#12 ∈ operandOffsets ∧ 15 < 16 ∧
      255 < running.maxLen := by decide

/-- The ends of every reserved range, and the cells just past MAX_LEN. -/
theorem witness_ReadOnlyAndReservedIgnoreWrites :
    (∀ a ∈ [0x034, 0x03C, 0x080, 0x3FC, 0xC00, 0xFFC], reservedOffset 256 a) ∧ reservedOffset 255 0x7FC ∧
      reservedOffset 255 0xBFC ∧ reservedOffset 2 0x408 ∧ 255 < base.maxLen ∧ base.maxLen ≤ 256 := by
  refine ⟨?_, ⟨by decide, by decide, ?_⟩, ⟨by decide, by decide, ?_⟩, ⟨by decide, by decide, ?_⟩, by decide, by decide⟩
  · intro a ha
    simp only [List.mem_cons, List.not_mem_nil, or_false] at ha
    rcases ha with rfl | rfl | rfl | rfl | rfl | rfl <;> exact ⟨by decide, by decide, by omega⟩
  · exact .inr (.inr (.inr ⟨255, by decide, by decide, .inl rfl⟩))
  · exact .inr (.inr (.inr ⟨255, by decide, by decide, .inr rfl⟩))
  · exact .inr (.inr (.inr ⟨2, by decide, by decide, .inl rfl⟩))

theorem witness_SoftResetGivesTheResetState : (2#32 : Word).getLsbD 1 = true ∧ (3#32 : Word).getLsbD 1 = true := by decide

theorem witness_CtrlWriteSetsIe : (0#32 : Word).getLsbD 1 = false ∧ (1#32 : Word).getLsbD 1 = false := by decide

theorem witness_AccessBeforeCompletionInOneCycle :
    ({ running with pending := [.access (busWrite 0x008#12 0xE), .engine] } : State).phase = .busy ∧
      ({ running with pending := [.access (busWrite 0x018#12 3), .engine] } : State).phase = .busy ∧
      0x018#12 ∈ operandOffsets ∧ (2#32 : Word).getLsbD 1 = true ∧
      ({ running with pending := [.access (busWrite 0x004#12 2), .engine] } : State).phase = .busy := by decide

theorem witness_ResultIsThatOfTheAcceptedState :
    base.phase = .idle ∧
      ∀ e ∈ [Event.access (busWrite 0x018#12 3), .access (busWrite 0x004#12 1), .access (busRead 0x008#12)],
        e ≠ .engine ∧ resets e = false := by decide

theorem witness_AcceptedCommandCompletes :
    running.phase = .busy ∧
      ∀ e ∈ ({ running with pending := [.access (busWrite 0x018#12 3), .engine] } : State).pending, resets e = false := by
  decide

theorem witness_OnlyAlignedWholeWordsAreServed :
    ({ offset := 0x010, size := .byte, op := .write 0b0001 5 } : Access).size ≠ .word ∧ (busRead 0x002#12).offset.toNat % 4 ≠ 0 ∧
      (0b0111#4 : BitVec 4) ≠ 0b1111#4 ∧ (busRead 0xFFC#12).size = .word ∧ (busRead 0xFFC#12).offset.toNat % 4 = 0 ∧
      (busRead 0xFFC#12).op = .read ∧ (busWrite 0x000#12 1).op = .write 0b1111#4 1 := by decide

theorem witness_ReadsHaveNoSideEffects : (busRead 0x008#12).op = .read := by decide

theorem witness_RegisterMapReads : State.reset.maxLen ≤ 256 ∧ 15 < 16 ∧ 255 < State.reset.maxLen := by decide

theorem witness_KeyBytesAreLittleEndian : 15 < 16 ∧ 3 < 4 := by decide

theorem witness_WindowIsFourKibibytesAtBase : 4095 < 4096 ∧ Config.base + 4096 ≤ Config.base + 4096 := ⟨by decide, le_refl _⟩

theorem witness_IrqIsEnableAndDone :
    (∃ t, completion running = .next t) ∧ (2#32 : Word).getLsbD 1 = true ∧ base.phase = .idle ∧
      (0#32 : Word).getLsbD 1 = false ∧ (0#32 : Word).getLsbD 0 = false :=
  ⟨⟨_, rfl⟩, by decide, by decide, by decide, by decide⟩

theorem witness_ResetState : ({ running with pending := [.hardReset] } : State).pending = [.hardReset] := by decide

theorem witness_StepKeepsTheInvariant : running.Inv ∧ ∃ t, step running = .next t := ⟨running_inv, ⟨_, rfl⟩⟩

theorem witness_LdkeyLoadsTheKey :
    base.phase = .idle ∧ ([] : List Byte).length ≤ 64 ∧ (List.replicate 64 (1#8 : Byte)).length ≤ 64 ∧
      secretKey.length ≤ 64 := by decide

end Sys2Proof.Tests
end

section
/-! SUPPORT. Byte orders in the words of spec/00_scope.md rule R12. -/

namespace Sys2Proof.Machine

/-- R12: the four bytes of `LE32(v)` as naturals, least significant first. -/
theorem le32_map_toNat {v : Nat} (hv : v < 2 ^ 32) :
    (le32 v).map BitVec.toNat = [v % 256, v / 2 ^ 8 % 256, v / 2 ^ 16 % 256, v / 2 ^ 24] := by
  have htop : v / 2 ^ 24 < 256 := by omega
  simpa [le32] using htop

/-- R12: `BEnat(x)` weighs byte `k` of `x` by 256 to the number of bytes after it. -/
theorem beNat_eq_sum (x : List Byte) :
    beNat x = ((List.range x.length).map fun k => (x.getD k 0).toNat * 256 ^ (x.length - 1 - k)).sum := by
  induction x with
  | nil => rfl
  | cons b x ih =>
    rw [beNat_cons, ih, List.length_cons, List.range_succ_eq_map]
    simp [Function.comp_def, Nat.sub_sub, Nat.add_comm 1]

end Sys2Proof.Machine

namespace Sys2Proof.Spec

open Sys2Proof.Machine

/-- Settles O23: `BE32` is `LE32` reversed by definition, and the bytes of `BEnat` are weighed by induction. -/
theorem byteOrders : Obligations.ByteOrders :=
  ⟨fun _ hv => ⟨le32_map_toNat hv, rfl, beNat_be32 hv⟩, beNat_eq_sum⟩

end Sys2Proof.Spec
end

section
/-! SUPPORT. The step by the event that is first in the order (spec/20_memory.md rule R92), and the engine's turn by its
phase and its command word (spec/44_control.md rules R260, R263, R264). -/

namespace Sys2Proof.Machine

theorem engineStep_idle {s : State} (h : s.phase = .idle) : engineStep s = .next s := by simp [engineStep, h]

theorem engineStep_command {s : State} {i : Instr} (h : s.phase = .busy) (hd : decode s.cur = .ok i) :
    engineStep s = exec i s := by
  rw [engineStep_busy h, completion, State.command_eq, hd]

theorem engineStep_reserved {s : State} {r : DecodeReject} (h : s.phase = .busy) (hd : decode s.cur = .error r) :
    engineStep s = .next (s.completeError .opcode) := by
  rw [engineStep_busy h, completion, State.command_eq, hd]

/-- With nothing pending the step is the engine's turn (log entry 2). -/
theorem step_nil {s : State} (h : s.pending = []) : step s = engineStep s := by simp [step, h]

/-- The step with a master's access first in the order. -/
theorem step_master {s : State} {addr : Nat} {size : AccessSize} {op : BusOp} {rest : List Event}
    (h : s.pending = .master addr size op :: rest) :
    step s = .next ({ s with pending := rest }.serveMaster addr size op) := by
  simp [step, h, eventStep, State.popEvent]

/-- The step with the hard reset first in the order (R330). -/
theorem step_hardReset {s : State} {rest : List Event} (h : s.pending = .hardReset :: rest) :
    step s = .next { State.resetWith s.maxLen with pending := rest } := by
  simp [step, h, eventStep, State.popEvent, State.resetDevice]

theorem decode_encode (i : Instr) : decode (encode i) = .ok i := by cases i <;> rfl

/-- A word of 32 bits is placed whole (log entry 5). -/
theorem withFetchWord_toNat (s : State) (w : Word) : s.withFetchWord 32 w.toNat = s.placeCommand w := by
  rw [State.withFetchWord, Nat.mod_eq_of_lt w.isLt, BitVec.ofNat_toNat, BitVec.setWidth_eq]

/-- A placed command takes the engine's turn on the accepted state (R261, log entry 5). -/
theorem step_placeCommand (s : State) (w : Word) : step (s.placeCommand w) = engineStep (s.accept w) :=
  step_engine (State.placeCommand_pending s w)

end Sys2Proof.Machine

namespace Sys2Proof.Spec

open Sys2Proof.Machine

/-- Settles O4: one step law per first event, and the engine's turn by the phase and the command word. -/
theorem stepRunsTheAcceptedCommand : Obligations.StepRunsTheAcceptedCommand := by
  refine ⟨fun s i rest hp hd => ⟨fun h => ?_, fun h => ?_⟩, fun s r rest hp hd => ⟨fun h => ?_, fun h => ?_⟩,
    fun s rest hp => ⟨fun h => ?_, fun h => ?_⟩, fun _ _ _ => step_access, fun _ _ _ _ _ => step_master,
    fun _ _ => step_hardReset, fun s i => ?_⟩
  · exact (step_engine h).trans (engineStep_command hp hd)
  · exact (step_nil h).trans (engineStep_command hp hd)
  · exact (step_engine h).trans (engineStep_reserved hp hd)
  · exact (step_nil h).trans (engineStep_reserved hp hd)
  · exact (step_engine h).trans (engineStep_idle hp)
  · exact (step_nil h).trans (engineStep_idle hp)
  · rw [withFetchWord_toNat, step_placeCommand, engineStep_command rfl (decode_encode i)]

end Sys2Proof.Spec
end

section
/-! SUPPORT. Every step keeps the invariant and MAX_LEN (spec/00_scope.md rules R8, R9, spec/10_state.md rules R37, R39):
the law for the engine's turn, for an access and for a master's access, and the step law assembled from them. -/

namespace Sys2Proof.Machine

/-- The engine's turn keeps the invariant: a completion writes only cells below MAX_LEN, and sets ERR only beside a code
other than OK (R264). -/
theorem engineStep_inv {s t : State} (h : s.Inv) (hs : engineStep s = .next t) : t.Inv := by
  rcases engineStep_cases s with ⟨-, e⟩ | ⟨-, u, e, hu⟩ | ⟨-, c, e, hc⟩ <;> cases e.symm.trans hs
  · exact h
  · exact completeOk_inv h hu
  · exact completeError_inv h hc

theorem engineStep_maxLen {s t : State} (hs : engineStep s = .next t) : t.maxLen = s.maxLen := by
  rcases engineStep_cases s with ⟨-, e⟩ | ⟨-, u, e, -⟩ | ⟨-, c, e, -⟩ <;> cases e.symm.trans hs <;> rfl

@[simp] theorem writeLocation_maxLen (s : State) (l : Location) (v : Word) : (s.writeLocation l v).maxLen = s.maxLen := by
  rcases writeLocation_cases s l v with ⟨e, -⟩ | ⟨e, -⟩ | ⟨e, -⟩ | ⟨e, -⟩ | ⟨e, -⟩ | ⟨e, -⟩ | ⟨-, o, e, -⟩ <;> rw [e] <;> rfl

@[simp] theorem serve_maxLen (s : State) (a : Access) : (s.serve a).maxLen = s.maxLen := by
  rcases serve_cases s a with ⟨r, e⟩ | ⟨-, strb, v, -, e⟩ <;> simp [e]

@[simp] theorem serveMaster_maxLen (s : State) (addr : Nat) (size : AccessSize) (op : BusOp) :
    (s.serveMaster addr size op).maxLen = s.maxLen := by
  rcases serveMaster_cases s addr size op with e | ⟨a, e⟩ <;> simp [e]

/-- A master's access keeps the invariant, inside the window and outside it (R80). -/
theorem serveMaster_inv {s : State} (h : s.Inv) (addr : Nat) (size : AccessSize) (op : BusOp) :
    (s.serveMaster addr size op).Inv := by
  rcases serveMaster_cases s addr size op with e | ⟨a, e⟩ <;> rw [e]
  · exact h
  · exact serve_inv h a

theorem step_inv {s t : State} (h : s.Inv) (hs : step s = .next t) : t.Inv := by
  rcases step_cases s with ⟨-, e⟩ | ⟨_, -, e⟩ | ⟨a, _, -, e⟩ | ⟨addr, size, op, _, -, e⟩ | ⟨_, -, e⟩ <;> rw [e] at hs
  · exact engineStep_inv h hs
  · exact engineStep_inv (popEvent_inv h) hs
  · cases hs; exact serve_inv (popEvent_inv h) a
  · cases hs; exact serveMaster_inv (popEvent_inv h) addr size op
  · cases hs; exact resetDevice_inv (popEvent_inv h)

/-- MAX_LEN is a parameter: no step changes it, from any state (R8, log entry 4). -/
theorem step_maxLen {s t : State} (hs : step s = .next t) : t.maxLen = s.maxLen := by
  rcases step_cases s with ⟨-, e⟩ | ⟨_, -, e⟩ | ⟨a, _, -, e⟩ | ⟨addr, size, op, _, -, e⟩ | ⟨_, -, e⟩ <;> rw [e] at hs
  · exact engineStep_maxLen hs
  · exact engineStep_maxLen (s := s.popEvent) hs
  · cases hs; exact serve_maxLen s.popEvent a
  · cases hs; exact serveMaster_maxLen s.popEvent addr size op
  · cases hs; rfl

end Sys2Proof.Machine

namespace Sys2Proof.Spec

open Sys2Proof.Machine

/-- Settles O57, by the cases of a step. -/
theorem stepKeepsTheInvariant : Obligations.StepKeepsTheInvariant := fun _ _ h hs => ⟨step_inv h hs, step_maxLen hs⟩

end Sys2Proof.Spec
end

section
/-! SUPPORT. What the bits of the STATUS and CTRL words say (spec/10_state.md rules R34 to R39). -/

namespace Sys2Proof.Machine

theorem flagBit_eq (b : Bool) (i : Nat) : flagBit b i = b.toNat * 2 ^ i := by cases b <;> simp [flagBit]

/-- The codes fit the four bits of ERRCODE (R39, R290). -/
theorem ErrCode.number_lt (c : ErrCode) : c.number < 8 := by cases c <;> decide

/-- R34: CTRL reads IE in bit 0 and nothing else. -/
theorem ctrlWord_eq (s : State) : s.ctrlWord = if s.ie then 1#32 else 0#32 := by
  unfold State.ctrlWord
  cases s.ie <;> rfl

/-- R39: STATUS as a sum; the flags and ERRCODE stay within 11 bits, so the word holds them all. -/
theorem statusWord_toNat (s : State) :
    s.statusWord.toNat =
      s.busy.toNat + s.done.toNat * 2 + s.err.toNat * 4 + s.ovr.toNat * 8 + s.errcode.number * 256 := by
  have hb := s.busy.toNat_lt
  have hd := s.done.toNat_lt
  have he := s.err.toNat_lt
  have ho := s.ovr.toNat_lt
  have hc := s.errcode.number_lt
  simp only [State.statusWord, flagBit_eq, BitVec.toNat_ofNat]
  omega

/-- A bit of a word, from the arithmetic of its number (R11). -/
theorem getLsbD_eq_of_div_mod {w : Word} {i : Nat} {b : Bool} (h : w.toNat / 2 ^ i % 2 = b.toNat) : w.getLsbD i = b := by
  rw [← bitOf_eq, bitOf, h]
  cases b <;> rfl

end Sys2Proof.Machine

namespace Sys2Proof.Spec

open Sys2Proof.Machine

/-- Settles O50: every bit and field is a quotient and a remainder of the sum that STATUS is. -/
theorem statusWordLayout : Obligations.StatusWordLayout := by
  refine ⟨rfl, fun s => ?_⟩
  have hs := statusWord_toNat s
  have hb := s.busy.toNat_lt
  have hd := s.done.toNat_lt
  have he := s.err.toNat_lt
  have ho := s.ovr.toNat_lt
  have hc := s.errcode.number_lt
  refine ⟨getLsbD_eq_of_div_mod (b := s.busy) ?_, getLsbD_eq_of_div_mod ?_, getLsbD_eq_of_div_mod ?_,
    getLsbD_eq_of_div_mod ?_, BitVec.eq_of_toNat_eq ?_, ?_, BitVec.eq_of_toNat_eq ?_⟩ <;>
    simp only [BitVec.extractLsb'_toNat, Nat.shiftRight_eq_div_pow, BitVec.toNat_ofNat, hs] <;> omega

end Sys2Proof.Spec
end

section
/-! SUPPORT. The key store as the bytes of the KEY words (spec/10_state.md rule R45, spec/20_memory.md rule R86). -/

namespace Sys2Proof.Machine

/-- R12: byte `b` of `LE32` of a word is the bits `8b+7` to `8b` of the word. -/
theorem le32_getElem? (w : Word) {b : Nat} (hb : b < 4) : (le32 w.toNat)[b]? = some (w.extractLsb' (8 * b) 8) := by
  rw [BitVec.extractLsb', Nat.shiftRight_eq_div_pow]
  have hcase : b = 0 ∨ b = 1 ∨ b = 2 ∨ b = 3 := by omega
  rcases hcase with rfl | rfl | rfl | rfl <;> simp [le32]

/-- Words laid out one after the other in `LE32` take four bytes each. -/
theorem flatMap_le32_length (ws : List Word) : (ws.flatMap fun w => le32 w.toNat).length = 4 * ws.length := by
  induction ws with
  | nil => rfl
  | cons w ws ih =>
    rw [List.flatMap_cons, List.length_append, le32_length, ih, List.length_cons]
    omega

/-- Words laid out one after the other in `LE32`: byte `4i + b` is byte `b` of word `i`. -/
theorem flatMap_le32_getElem? (ws : List Word) {i b : Nat} (hi : i < ws.length) (hb : b < 4) :
    (ws.flatMap fun w => le32 w.toNat)[4 * i + b]? = some (ws[i].extractLsb' (8 * b) 8) := by
  induction ws generalizing i with
  | nil => simp at hi
  | cons w ws ih =>
    rw [List.flatMap_cons]
    cases i with
    | zero =>
      rw [Nat.mul_zero, Nat.zero_add, List.getElem?_append_left hb]
      exact le32_getElem? w hb
    | succ i =>
      have hskip : 4 * (i + 1) + b - (le32 w.toNat).length = 4 * i + b := by rw [le32_length]; omega
      rw [List.getElem?_append_right (by rw [le32_length]; omega), hskip]
      exact ih (Nat.lt_of_succ_lt_succ hi)

end Sys2Proof.Machine

namespace Sys2Proof.Spec

open Sys2Proof.Machine

/-- Settles O51: the key store is the 16 KEY words laid out in `LE32`. -/
theorem keyBytesAreLittleEndian : Obligations.KeyBytesAreLittleEndian := by
  refine fun o => ⟨?_, rfl, fun w hw b hb => ?_⟩
  · rw [Operands.keyStore, flatMap_le32_length, Vector.length_toList]
  · rw [Operands.keyStore, flatMap_le32_getElem? _ (by rwa [Vector.length_toList]) hb, Vector.getElem_toList]

end Sys2Proof.Spec
end

section
/-! SUPPORT. What a word read of each offset of the map answers (spec/10_state.md rules R32 to R52, spec/20_memory.md
rules R83, R84). -/

namespace Sys2Proof.Spec

open Sys2Proof.Machine

/-- A word read of an offset of the map answers the data of its location (R84). -/
theorem reads_at (s : State) {a : Nat} {l : Location} (ha : a < 4096) (h4 : a % 4 = 0) (hl : locate s.maxLen a = l) :
    reads s (BitVec.ofNat 12 a) (s.readLocation l) := by
  have hn : (BitVec.ofNat 12 a).toNat = a := by rw [BitVec.toNat_ofNat, Nat.mod_eq_of_lt ha]
  have h := serve_busRead s (a := BitVec.ofNat 12 a) (by rwa [hn])
  rwa [hn, hl] at h

/-- The same below 0x400, where the map does not depend on MAX_LEN. -/
theorem reads_low (s : State) {a : Nat} (ha : a < 0x400) (h4 : a % 4 = 0) :
    reads s (BitVec.ofNat 12 a) (s.readLocation (locateLow a)) :=
  reads_at s (by omega) h4 (locate_low _ ha)

/-- The map has nothing at a reserved offset (R83). -/
theorem locate_reservedOffset {n a : Nat} (h : reservedOffset n a) : locate n a = .reserved := by
  obtain ⟨-, -, hole | hole | top | ⟨k, hn, hk, rfl | rfl⟩⟩ := h
  · rw [locate_low n (by omega), locateLow_reserved (by omega)]
  · rw [locate_low n (by omega), locateLow_reserved (by omega)]
  · exact locate_top n top.1
  · exact (locate_beyond hn hk).1
  · exact (locate_beyond hn hk).2

/-- Settles O49: each offset has its location in the map, and a read answers that location's data. -/
theorem registerMapReads : Obligations.RegisterMapReads := by
  intro s hn
  rw [← ctrlWord_eq]
  have low {a : Nat} := reads_low s (a := a)
  refine ⟨low (by decide) rfl, low (by decide) rfl, low (by decide) rfl, low (by decide) rfl, low (by decide) rfl,
    low (by decide) rfl, low (by decide) rfl, low (by decide) rfl, low (by decide) rfl, low (by decide) rfl,
    low (by decide) rfl, low (by decide) rfl, low (by decide) rfl, fun w hw => ?_, fun k hk => ?_, fun k hk => ?_,
    fun a ha => ?_⟩
  · exact reads_at s (by omega) (by omega) (locate_key _ hw)
  · exact reads_at s (by omega) (by omega) (locate_inp hk hn)
  · exact reads_at s (by omega) (by omega) (locate_out hk hn)
  · have hl := locate_reservedOffset ha
    obtain ⟨hlt, h4, -⟩ := ha
    exact reads_at s hlt h4 hl

end Sys2Proof.Spec
end

section
/-! SUPPORT. The machine with its KEY words hidden: no access answers, and none passes on to the rest of the state, what
they hold (spec/10_state.md rule R45, spec/70_reset_and_hazards.md rule R337). -/

namespace Sys2Proof.Machine

/-- The operands with every KEY word 0. -/
def Operands.hideKey (o : Operands) : Operands := { o with key := Vector.replicate 16 0 }

/-- The state with every KEY word 0: all of it that is not the key. -/
def State.hideKey (s : State) : State := { s with ops := s.ops.hideKey }

theorem writeCmd_idle {s : State} (h : s.phase = .idle) (w : Word) : s.writeCmd w = s.accept w := by
  simp only [State.writeCmd, h]

theorem writeCmd_busy {s : State} (h : s.phase = .busy) (w : Word) : s.writeCmd w = s.overrun := by
  simp only [State.writeCmd, h]

@[simp] theorem State.hideKey_ops (s : State) : s.hideKey.ops = s.ops.hideKey := rfl

@[simp] theorem Operands.hideKey_hideKey (o : Operands) : o.hideKey.hideKey = o.hideKey := rfl

@[simp] theorem hideKey_setKey (o : Operands) (w : Nat) (v : Word) : (o.setKey w v).hideKey = o.hideKey := rfl

@[simp] theorem set_hideKey (o : Operands) (r : OperandReg) (v : Word) : o.hideKey.set r v = (o.set r v).hideKey := by
  cases r <;> rfl

/-- Hiding KEY leaves the answer to the latest access. -/
theorem resp_eq_of_hideKey_eq {s t : State} (h : s.hideKey = t.hideKey) : s.resp = t.resp := (congrArg State.resp h :)

/-- No location reads as anything of KEY (R45). -/
@[simp] theorem readLocation_hideKey (s : State) (l : Location) : s.hideKey.readLocation l = s.readLocation l := by
  cases l with
  | operand r => cases r <;> rfl
  | _ => rfl

/-- A store of operands that agree but for KEY, into states that agree but for KEY. -/
theorem writeOps_hideKey (s : State) {o p : Operands} (h : o.hideKey = p.hideKey) :
    (s.hideKey.writeOps o).hideKey = (s.writeOps p).hideKey := by
  cases hp : s.phase with
  | idle =>
    rw [writeOps_idle hp, writeOps_idle (s := s.hideKey) hp]
    simp only [State.hideKey, h]
  | busy =>
    rw [writeOps_busy hp, writeOps_busy (s := s.hideKey) hp]
    rfl

theorem writeCmd_hideKey (s : State) (w : Word) : (s.hideKey.writeCmd w).hideKey = (s.writeCmd w).hideKey := by
  cases hp : s.phase with
  | idle =>
    rw [writeCmd_idle hp, writeCmd_idle (s := s.hideKey) hp]
    rfl
  | busy =>
    rw [writeCmd_busy hp, writeCmd_busy (s := s.hideKey) hp]
    rfl

/-- What a write does beside KEY does not depend on KEY. -/
theorem writeLocation_hideKey (s : State) (l : Location) (v : Word) :
    (s.hideKey.writeLocation l v).hideKey = (s.writeLocation l v).hideKey := by
  cases l with
  | operand r => exact writeOps_hideKey s (by simp)
  | key w => exact writeOps_hideKey s rfl
  | inp k => exact writeOps_hideKey s rfl
  | ctrl =>
    simp only [State.writeLocation, State.writeCtrl]
    cases bitOf v 1 <;> rfl
  | cmd => exact writeCmd_hideKey s v
  | _ => rfl

/-- What an access does beside KEY, its answer included, does not depend on KEY. -/
theorem serve_hideKey (s : State) (a : Access) : (s.hideKey.serve a).hideKey = (s.serve a).hideKey := by
  unfold State.serve
  cases served a with
  | false => cases a.op <;> rfl
  | true =>
    cases a.op with
    | read =>
      simp only [↓reduceIte, State.serveRead, readLocation_hideKey]
      rfl
    | write strb v => exact congrArg (State.answer · (.write .okay)) (writeLocation_hideKey s (s.locateAccess a) v)

/-- States that agree but for KEY still do after any list of accesses. -/
theorem foldl_serve_hideKey {s t : State} (h : s.hideKey = t.hideKey) (accs : List Access) :
    (accs.foldl State.serve s).hideKey = (accs.foldl State.serve t).hideKey := by
  induction accs generalizing s t with
  | nil => exact h
  | cons a accs ih => exact ih (by rw [← serve_hideKey s, h, serve_hideKey t])

end Sys2Proof.Machine

namespace Sys2Proof.Spec

open Sys2Proof.Machine

/-- Settles O52, by induction on the accesses: the answer belongs to what agrees but for KEY. -/
theorem keyIsNeverReadBack : Obligations.KeyIsNeverReadBack := by
  intro s key accs
  apply resp_eq_of_hideKey_eq
  apply foldl_serve_hideKey
  rfl

end Sys2Proof.Spec
end

section
/-! SUPPORT. Writes that only answer, to the read-only and the reserved offsets (spec/20_memory.md rules R83, R85,
spec/44_control.md rule R265). -/

namespace Sys2Proof.Spec

open Sys2Proof.Machine

/-- A word write to an offset of the map whose location ignores it only answers OKAY, in either phase. -/
theorem write_ignored_at {s : State} {v : Word} {a : Nat} {l : Location} (ha : a < 4096) (h4 : a % 4 = 0)
    (hl : locate s.maxLen a = l) (hw : s.writeLocation l v = s) :
    s.serve (busWrite (BitVec.ofNat 12 a) v) = okayOnly s := by
  have hn : (BitVec.ofNat 12 a).toNat = a := by rw [BitVec.toNat_ofNat, Nat.mod_eq_of_lt ha]
  rw [serve_busWrite s (by rwa [hn]), hn, hl, hw]
  rfl

/-- Settles O40: ID, CPH, the OUT cells and the reserved offsets are the locations that a write leaves alone. -/
theorem readOnlyAndReservedIgnoreWrites : Obligations.ReadOnlyAndReservedIgnoreWrites := by
  refine fun s v hn => ⟨?id, ?cph, fun k hk => ?out, fun a ha => ?reserved⟩
  case id => exact write_ignored_at (l := .id) (by decide) rfl (locate_low _ (by decide)) rfl
  case cph => exact write_ignored_at (l := .cph) (by decide) rfl (locate_low _ (by decide)) rfl
  case out => exact write_ignored_at (by omega) (by omega) (locate_out hk hn) rfl
  case reserved =>
    have hl := locate_reservedOffset ha
    obtain ⟨hlt, h4, -⟩ := ha
    exact write_ignored_at hlt h4 hl rfl

end Sys2Proof.Spec
end

section
/-! SUPPORT. Which accesses are served and what the others answer (spec/20_memory.md rule R82). -/

namespace Sys2Proof.Machine

theorem fullStrobes_eq_false_iff {op : BusOp} :
    fullStrobes op = false ↔ ∃ strb v, op = .write strb v ∧ strb ≠ 0b1111#4 := by
  cases op <;> simp [fullStrobes]

/-- The three ways in which an access is not served. -/
theorem served_eq_false_iff {a : Access} :
    served a = false ↔
      a.size ≠ .word ∨ a.offset.toNat % 4 ≠ 0 ∨ ∃ strb v, a.op = .write strb v ∧ strb ≠ 0b1111#4 := by
  rw [served, Bool.and_eq_false_iff, Bool.and_eq_false_iff, decide_eq_false_iff_not, decide_eq_false_iff_not,
    fullStrobes_eq_false_iff, or_assoc]

theorem serve_not_served (s : State) {a : Access} (h : served a = false) : s.serve a = s.serveError a.op := by
  simp [State.serve, h]

/-- A whole-word read is `BusRead` of its offset (R15). -/
theorem eq_busRead {a : Access} (hs : a.size = .word) (ho : a.op = .read) : a = busRead a.offset := by
  cases a
  cases hs
  cases ho
  rfl

/-- A whole-word write with all four strobes is `BusWrite` to its offset (R15). -/
theorem eq_busWrite {a : Access} {v : Word} (hs : a.size = .word) (ho : a.op = .write 0b1111#4 v) :
    a = busWrite a.offset v := by
  cases a
  cases hs
  cases ho
  rfl

end Sys2Proof.Machine

namespace Sys2Proof.Spec

open Sys2Proof.Machine

/-- Settles O47: what is not served answers an error, and the rest are the accesses `BusRead` and `BusWrite`. -/
theorem onlyAlignedWholeWordsAreServed : Obligations.OnlyAlignedWholeWordsAreServed := by
  refine fun s a => ⟨fun h => ?_, fun hs h4 => ⟨fun ho => ?_, fun v ho => ?_⟩⟩
  · rw [serve_not_served s (served_eq_false_iff.mpr h)]
    exact ⟨fun ho => by rw [ho]; rfl, fun strb v ho => by rw [ho]; rfl⟩
  · rw [eq_busRead hs ho, serve_busRead s h4]
    exact ⟨_, rfl⟩
  · rw [eq_busWrite hs ho, serve_busWrite s h4]
    rfl

/-- Settles O48: an access that does more than answer is a write. -/
theorem readsHaveNoSideEffects : Obligations.ReadsHaveNoSideEffects := by
  intro s a ho
  rcases serve_cases s a with answersOnly | ⟨-, strb, v, hw, -⟩
  · exact answersOnly
  · cases ho.symm.trans hw

end Sys2Proof.Spec
end

section
/-! SUPPORT. The bus addresses of the register window (spec/20_memory.md rule R80, spec/00_scope.md rule R8). -/

namespace Sys2Proof.Machine

/-- `BASE` is a multiple of the size of the window, whatever page it is (R8). -/
theorem base_mod_windowBytes : Config.base % Config.windowBytes = 0 := Nat.mul_mod_right _ _

/-- The window holds `BASE .. BASE + 0xFFF`, at the offsets from `BASE` (R80). -/
theorem windowOffset_base_add {k : Nat} (h : k < Config.windowBytes) :
    windowOffset (Config.base + k) = some (BitVec.ofNat 12 k) := by
  rw [windowOffset, if_pos ⟨Nat.le_add_right _ _, Nat.add_lt_add_left h _⟩, Nat.add_sub_cancel_left]

theorem windowOffset_outside {addr : Nat} (h : addr < Config.base ∨ Config.base + Config.windowBytes ≤ addr) :
    windowOffset addr = none := by
  rw [windowOffset, if_neg (by omega)]

theorem serveMaster_inside (s : State) {addr : Nat} {o : BitVec 12} (h : windowOffset addr = some o) (size : AccessSize)
    (op : BusOp) : s.serveMaster addr size op = s.serve { offset := o, size := size, op := op } := by
  simp only [State.serveMaster, h]

theorem serveMaster_outside (s : State) {addr : Nat} (h : windowOffset addr = none) (size : AccessSize) (op : BusOp) :
    s.serveMaster addr size op = s := by
  simp only [State.serveMaster, h]

end Sys2Proof.Machine

namespace Sys2Proof.Spec

open Sys2Proof.Machine

/-- Settles O53: an access is served at the window offset of its address, and an address outside has none. -/
theorem windowIsFourKibibytesAtBase : Obligations.WindowIsFourKibibytesAtBase :=
  ⟨base_mod_windowBytes, fun s _ size op hk => serveMaster_inside s (windowOffset_base_add hk) size op,
    fun s _ size op h => serveMaster_outside s (windowOffset_outside h) size op⟩

end Sys2Proof.Spec
end

section
/-! SUPPORT. The decoder by the two fields of a command word (spec/30_encoding.md rules R110 to R113). -/

namespace Sys2Proof

/-- R110: RSVD is the bits 31:4 of the word. -/
theorem rsvdField_eq (w : Word) : rsvdField w = (w.extractLsb' 4 28).toNat := by
  have hw := w.isLt
  simp only [rsvdField, BitVec.extractLsb'_toNat, Nat.shiftRight_eq_div_pow]
  omega

/-- R110: OP is the bits 3:0 of the word. -/
theorem opField_eq (w : Word) : opField w = (w.extractLsb' 0 4).toNat := by
  simp [opField]

/-- A word has RSVD 0 exactly when its bits 31:4 are 0. -/
theorem rsvdField_eq_zero_iff (w : Word) : rsvdField w = 0 ↔ w.extractLsb' 4 28 = 0#28 := by
  rw [rsvdField_eq, BitVec.toNat_eq, BitVec.toNat_ofNat, Nat.zero_mod]

/-- R113: a set reserved bit alone rejects the word. -/
theorem decode_of_rsvd {w : Word} (h : rsvdField w ≠ 0) : decode w = .error .rsvdSet := if_pos h

/-- R111: with RSVD 0 and the OP of a command the word is that command's. -/
theorem decode_of_opcode {w : Word} {i : Instr} (h : rsvdField w = 0) (ho : opField w = opcode i) : decode w = .ok i := by
  cases i <;> simp [decode, h, ho, opcode]

/-- R113: with RSVD 0 an OP of 6 or more rejects the word. -/
theorem decode_of_op_ge {w : Word} (h : rsvdField w = 0) (ho : 6 ≤ opField w) : decode w = .error .opReserved := by
  unfold decode
  rw [if_neg (not_not_intro h)]
  split
  case h_7 => rfl
  all_goals omega

/-- R112, R113: a word with a reserved bit set or an OP of 6 or more is no command. -/
theorem decode_reserved {w : Word} (h : rsvdField w ≠ 0 ∨ 6 ≤ opField w) : ∃ r, decode w = .error r := by
  by_cases hr : rsvdField w = 0
  · exact ⟨_, decode_of_op_ge hr (h.resolve_left (not_not_intro hr))⟩
  · exact ⟨_, decode_of_rsvd hr⟩

theorem Instr.wellFormed_eq_true (i : Instr) : i.wellFormed = true := by cases i <;> rfl

end Sys2Proof

namespace Sys2Proof.Spec

open Sys2Proof.Machine

/-- Settles O1, by the commands. -/
theorem decodeOfEncodeIsTheCommand : Obligations.DecodeOfEncodeIsTheCommand :=
  fun i => ⟨i.wellFormed_eq_true, decode_encode i⟩

/-- Settles O2: the first six words are the encodings of the six commands, the others have an OP or a reserved bit of
R113. -/
theorem writtenOutWordsDecode : Obligations.WrittenOutWordsDecode :=
  ⟨decode_encode .nop, decode_encode .enc, decode_encode .dec, decode_encode .rfn, decode_encode .dadd,
    decode_encode .dsub, decode_of_op_ge (by decide) (by decide), decode_of_op_ge (by decide) (by decide),
    decode_of_rsvd (by decide), decode_of_rsvd (by decide)⟩

/-- Settles O3: the decoder's law for each field, read on the bits of the word. -/
theorem decodeFollowsTheFields : Obligations.DecodeFollowsTheFields := by
  intro w
  refine ⟨fun h => decode_of_rsvd (mt (rsvdField_eq_zero_iff w).mp h), fun h => ?_⟩
  have hr : rsvdField w = 0 := (rsvdField_eq_zero_iff w).mpr h
  have hop (i : Instr) (ho : w.extractLsb' 0 4 = BitVec.ofNat 4 (opcode i)) : decode w = .ok i :=
    decode_of_opcode hr (by rw [opField_eq, ho]; cases i <;> rfl)
  exact ⟨hop .nop, hop .enc, hop .dec, hop .rfn, hop .dadd, hop .dsub, fun ho => decode_of_op_ge hr (opField_eq w ▸ ho)⟩

end Sys2Proof.Spec
end

section
/-! SUPPORT. A command word written to CMD and the engine's turn after it (spec/44_control.md rules R261, R264). -/

namespace Sys2Proof.Machine

/-- A word written to CMD while IDLE is accepted, whatever it is (R261). -/
theorem serve_cmd_idle {s : State} (h : s.phase = .idle) (w : Word) :
    s.serve (busWrite 0x00C#12 w) = (s.accept w).answer (.write .okay) :=
  (serve_busWrite s rfl w).trans (congrArg (State.answer · (.write .okay)) (writeCmd_idle h w))

/-- The step with a CMD write first in the order, while IDLE (R92, R261). -/
theorem step_cmd_idle {s : State} {w : Word} {rest : List Event} (hp : s.phase = .idle)
    (h : s.pending = .access (busWrite 0x00C#12 w) :: rest) :
    step s = .next (({ s with pending := rest }.accept w).answer (.write .okay)) :=
  (step_access h).trans <| congrArg Host.Outcome.next (serve_cmd_idle (s := { s with pending := rest }) hp w)

end Sys2Proof.Machine

namespace Sys2Proof.Spec

open Sys2Proof.Machine

/-- Settles O6: the first step accepts the word (R261), and the engine's turn completes it as reserved (R113). -/
theorem reservedWordCompletesWithErrOpcode : Obligations.ReservedWordCompletesWithErrOpcode := by
  intro s w rest hp hw hpend
  obtain ⟨r, hd⟩ := decode_reserved (w := w) (by rwa [ne_eq, rsvdField_eq_zero_iff, opField_eq])
  rw [run_succ (step_cmd_idle hp hpend)]
  exact run_succ ((step_engine rfl).trans (engineStep_reserved (r := r) rfl hd)) 0

end Sys2Proof.Spec
end

section
/-! SUPPORT. What a command writes, reads and leaves (spec/30_encoding.md rule R114, spec/44_control.md rule R264). -/

namespace Sys2Proof.Spec

open Sys2Proof.Machine

/-- R114, R292: ENC and DEC, whose bodies are one function of the same operands, check and compute alike on operands that
agree on them. -/
theorem checkedFeistel_congr {o p : Operands} (h : agreeOn.agreeCipher o p) (n : Nat)
    (body : List Byte → Nat → Nat → Digits → Result) :
    o.checkedFeistel n (body o.keyBytes o.radix.toNat o.rounds.toNat (o.cells 0 o.len.toNat)) =
      p.checkedFeistel n (body p.keyBytes p.radix.toNat p.rounds.toNat (p.cells 0 p.len.toNat)) := by
  obtain ⟨hkl, hk, hr, hn, hl, hin⟩ := h
  have hc := cells_congr (a := 0) hin (Nat.zero_add _).le
  simp only [Operands.checkedFeistel, Operands.badDigit, hc, hk, ← hkl, ← hr, ← hn, ← hl]

/-- R114, R292: DADD and DSUB check and compute alike on operands that agree on what they are listed to read. -/
theorem checkedArith_congr {o p : Operands} (h : agreeOn.agreeArith o p) (n : Nat)
    (body : Nat → Digits → Digits → Digits) :
    o.checkedArith n (.ok (body o.radix.toNat (o.cells 0 o.alen.toNat) (o.cells o.alen.toNat o.blen.toNat))) =
      p.checkedArith n (.ok (body p.radix.toNat (p.cells 0 p.alen.toNat) (p.cells p.alen.toNat p.blen.toNat))) := by
  obtain ⟨hr, ha, hb, hin⟩ := h
  have hall := cells_congr (a := 0) hin (Nat.zero_add _).le
  have hx := cells_congr (a := 0) (m := o.alen.toNat) hin (by omega)
  have hy := cells_congr (a := o.alen.toNat) hin le_rfl
  simp only [Operands.checkedArith, Operands.badDigit, hall, hx, hy, ← hr, ← ha, ← hb]

/-- R114, R292: RFN gives one result on operands that agree on what it is listed to read. -/
theorem rfnResult_congr {o p : Operands} (h : agreeOn .rfn o p) (n : Nat) : rfnResult n o = rfnResult n p := by
  obtain ⟨hkl, hk, hr, hi, hl, hm, hin⟩ := h
  have hc := cells_congr (a := 0) hin (Nat.zero_add _).le
  simp only [rfnResult, Operands.checkedRound, Operands.badDigit, hc, hk, ← hkl, ← hr, ← hi, ← hl, ← hm]

/-- R114: operands that agree on what a command is listed to read give it one result. -/
theorem result_congr {i : Instr} {o p : Operands} (n : Nat) (h : agreeOn i o p) : result i n o = result i n p := by
  cases i with
  | nop => rfl
  | enc => exact checkedFeistel_congr h n encrypt
  | dec => exact checkedFeistel_congr h n decrypt
  | rfn => exact rfnResult_congr h n
  | dadd => exact checkedArith_congr h n digitAdd
  | dsub => exact checkedArith_congr h n digitSub

/-- R114: the extent of a command is a function of what it is listed to read. -/
theorem cellsWritten_congr {i : Instr} {o p : Operands} (h : agreeOn i o p) : cellsWritten i o = cellsWritten i p := by
  cases i with
  | nop => rfl
  | enc => obtain ⟨-, -, -, -, hl, -⟩ := h; exact congrArg BitVec.toNat hl
  | dec => obtain ⟨-, -, -, -, hl, -⟩ := h; exact congrArg BitVec.toNat hl
  | rfn => obtain ⟨-, -, -, -, -, hm, -⟩ := h; exact congrArg BitVec.toNat hm
  | dadd => obtain ⟨-, ha, hb, -⟩ := h; simp only [cellsWritten, ha, hb]
  | dsub => obtain ⟨-, ha, hb, -⟩ := h; simp only [cellsWritten, ha, hb]

/-- Settles O18, by what a command can do: write its cells and complete with OK, or complete with a code. -/
theorem commandFrame : Obligations.CommandFrame := by
  intro i s t hinv ht
  obtain ⟨-, ⟨-, hout⟩, -⟩ := hinv
  rcases exec_cases i s with ⟨u, e, -, hlen, -⟩ | ⟨c, e, -, hc⟩ <;> cases e.symm.trans ht
  · refine ⟨completeOk_sameBeyond s u, rfl, rfl, by simp, fun k hk => ?_, fun h => absurd rfl h⟩
    exact Memory.read_writeDigits_other hout.1 u (.inr (by omega))
  · exact ⟨completeError_sameBeyond s c, rfl, rfl, by simp, fun _ _ => rfl, fun _ => rfl⟩

/-- Settles O19: both states complete with one result, and a digit of it lands in its cell whatever OUT held before. -/
theorem resultReadsOnlyItsOperands : Obligations.ResultReadsOnlyItsOperands := by
  intro i s s' t t' hinv hinv' hn hag ht ht'
  obtain ⟨-, ⟨-, hout⟩, -⟩ := hinv
  obtain ⟨-, ⟨-, hout'⟩, -⟩ := hinv'
  rw [exec_eq] at ht ht'
  cases ht
  cases ht'
  rw [← hn, ← result_congr s.maxLen hag]
  cases hres : result i s.maxLen s.ops with
  | error c => exact ⟨rfl, fun h => absurd h (result_error_ne_ok hres)⟩
  | ok u =>
    obtain ⟨hlen, -⟩ := result_ok hres
    refine ⟨rfl, fun _ => ⟨cellsWritten_congr hag, fun k hk => ?_⟩⟩
    have hk' : k < u.length := by omega
    have h := Memory.read_writeDigits_same hout.1 0 u hk'
    have h' := Memory.read_writeDigits_same hout'.1 0 u hk'
    rw [Nat.zero_add] at h h'
    exact h.trans h'.symm

end Sys2Proof.Spec
end

section
/-! SUPPORT. A host that runs lines `W <target>, <literal>`, and LDKEY as such lines (spec/30_encoding.md rules R117,
R118, spec/10_state.md rule R45). -/

namespace Sys2Proof.Machine

/-- The line `W <target>, <literal>` of R117 for a target and a word. -/
def writeLine (p : Target × Word) : Line := .write p.1 (.lit p.2)

/-- The device after the write of a word to a target. -/
def State.hostWrite (s : State) (p : Target × Word) : State := s.serve (busWrite (targetOffset p.1) p.2)

/-- R117: a host that stands before write lines makes those writes, in order, one a turn. -/
theorem run_writeLines (ps : List (Target × Word)) {b : Bench} (h : b.lines.drop b.line = ps.map writeLine) :
    ∃ b', Bench.run (List.replicate ps.length true) b = .next b' ∧ b'.dev = ps.foldl State.hostWrite b.dev := by
  induction ps generalizing b with
  | nil => exact ⟨b, rfl, rfl⟩
  | cons p ps ih =>
    have hline : b.lines[b.line]? = some (writeLine p) := by rw [← List.head?_drop, h]; rfl
    have hturn := hostTurn_write hline
    have hrest : b.lines.drop (b.line + 1) = ps.map writeLine := by rw [← List.tail_drop, h]; rfl
    obtain ⟨b', hrun, hdev⟩ := ih (b := { b.advance with
      dev := b.dev.hostWrite p,
      log := b.log ++ [{ dir := .w, offset := targetOffset p.1, data := p.2 }] }) hrest
    refine ⟨b', ?_, hdev⟩
    rw [List.length_cons, List.replicate_succ, Bench.run, if_pos rfl, hturn]
    exact hrun

/-- The writes of the KEY words of LDKEY (R118). -/
def keyWrites (key : List Byte) (n : Nat) : List (Target × Word) := (List.range n).map fun w => (.key w, keyWord key w)

/-- R118: LDKEY is the writes of the KEY words and then the write of KEYLEN. -/
theorem expandLdkey_eq (key : List Byte) :
    expandLdkey key =
      (keyWrites key ((key.length + 3) / 4) ++ [(Target.reg .keylen, BitVec.ofNat 32 key.length)]).map writeLine := by
  simp [expandLdkey, keyWrites, writeLine]

/-- A host's write to a target at a multiple of 4 takes effect at the target's location and answers OKAY (R82, R117). -/
theorem hostWrite_eq (s : State) {t : Target} (h : (targetOffset t).toNat % 4 = 0) (v : Word) :
    s.hostWrite (t, v) = (s.writeLocation (locate s.maxLen (targetOffset t).toNat) v).answer (.write .okay) :=
  serve_busWrite s h v

/-- A host's write to KEY[w] while IDLE stores the word (R45, R260). -/
theorem hostWrite_key {s : State} (h : s.phase = .idle) {w : Nat} (hw : w < 16) (v : Word) :
    s.hostWrite (.key w, v) = Spec.stored s (s.ops.setKey w v) := by
  have ha : (targetOffset (.key w)).toNat = 0x040 + 4 * w := by
    rw [targetOffset, BitVec.toNat_ofNat, Nat.mod_eq_of_lt (by omega)]
  rw [hostWrite_eq s (by omega), ha, locate_key _ hw, State.writeLocation, writeOps_idle h]
  rfl

/-- A host's write to KEYLEN while IDLE stores the word (R49, R260). -/
theorem hostWrite_keylen {s : State} (h : s.phase = .idle) (v : Word) :
    s.hostWrite (.reg .keylen, v) = Spec.stored s (s.ops.set .keylen v) := by
  have hl : locate s.maxLen (targetOffset (.reg .keylen)).toNat = .operand .keylen := locate_low _ (by decide)
  rw [hostWrite_eq s (by decide), hl, State.writeLocation, writeOps_idle h]
  rfl

@[simp] theorem stored_ops (s : State) (o : Operands) : (Spec.stored s o).ops = o := rfl

@[simp] theorem stored_phase (s : State) (o : Operands) : (Spec.stored s o).phase = s.phase := rfl

/-- A KEY word takes the value written, and no other changes (R45, R57). -/
theorem getElem_key_setKey (o : Operands) (n : Nat) (v : Word) {w : Nat} (hw : w < 16) :
    (o.setKey n v).key[w] = if n = w then v else o.key[w] :=
  Vector.getElem_setIfInBounds hw

/-- KEYLEN is the length of the HMAC key, and the key store does not depend on it (R170). -/
theorem keyBytes_set_keylen (o : Operands) (v : Word) : (o.set .keylen v).keyBytes = o.keyStore.take v.toNat := rfl

/-- The first `n` KEY words of LDKEY, written while IDLE, stand in the key store (R45, R118). -/
theorem foldl_keyWrites {s : State} (h : s.phase = .idle) (key : List Byte) {n : Nat} (hn : n ≤ 16) :
    ((keyWrites key n).foldl State.hostWrite s).phase = .idle ∧
      ∀ w (hw : w < 16), w < n → ((keyWrites key n).foldl State.hostWrite s).ops.key[w] = keyWord key w := by
  induction n with
  | zero => exact ⟨h, fun w _ hw => absurd hw (Nat.not_lt_zero w)⟩
  | succ n ih =>
    obtain ⟨hp, hkey⟩ := ih (by omega)
    have hlast : (keyWrites key (n + 1)).foldl State.hostWrite s =
        ((keyWrites key n).foldl State.hostWrite s).hostWrite (.key n, keyWord key n) := by
      simp [keyWrites, List.range_succ]
    rw [hlast, hostWrite_key hp (by omega)]
    refine ⟨hp, fun w hw hwn => ?_⟩
    rw [stored_ops, getElem_key_setKey]
    by_cases hlw : n = w
    · rw [if_pos hlw, hlw]
    · rw [if_neg hlw]
      exact hkey w hw (by omega)

end Sys2Proof.Machine

namespace Sys2Proof.Spec

open Sys2Proof.Machine

/-- R45, R118: a key store whose words are those of LDKEY holds the bytes of the string from `KEYB[0]` on. -/
theorem keyStore_take {o : Operands} {key : List Byte} (hlen : key.length ≤ 64)
    (h : ∀ w (hw : w < 16), w < (key.length + 3) / 4 → o.key[w] = keyWord key w) : o.keyStore.take key.length = key := by
  obtain ⟨hstore, -, hbyte⟩ := keyBytesAreLittleEndian o
  apply List.ext_getElem?
  intro j
  rcases Nat.lt_or_ge j key.length with hj | hj
  · have hw : j / 4 < 16 := by omega
    have hb : j % 4 < 4 := by omega
    have hjb : 4 * (j / 4) + j % 4 = j := by omega
    have hat := hbyte (j / 4) hw (j % 4) hb
    rw [hjb, h (j / 4) hw (by omega), keyWord_byte key _ hb, hjb] at hat
    rw [List.getElem?_take_of_lt hj, hat, List.getD_eq_getElem?_getD, List.getElem?_eq_getElem hj, Option.getD_some]
  · rw [List.getElem?_eq_none (by rw [List.length_take]; omega), List.getElem?_eq_none hj]

/-- Settles O58, by evaluation of the expansion and of the offsets. -/
theorem workedEncodingOfLdkey : Obligations.WorkedEncodingOfLdkey := ⟨by decide, by decide, rfl, rfl, rfl⟩

/-- Settles O59: the run is the writes of the KEY words and of KEYLEN, and the words written are the bytes of the string. -/
theorem ldkeyLoadsTheKey : Obligations.LdkeyLoadsTheKey := by
  intro s key hp hlen
  obtain ⟨hidle, hkey⟩ := foldl_keyWrites hp key (n := (key.length + 3) / 4) (by omega)
  obtain ⟨b, hrun, hdev⟩ := run_writeLines _
    (b := { lines := expandLdkey key, line := 0, names := [], log := [], dev := s }) (expandLdkey_eq key)
  rw [List.foldl_append, List.foldl_cons, List.foldl_nil, hostWrite_keylen hidle] at hdev
  refine ⟨b, by rwa [← List.length_map, ← expandLdkey_eq] at hrun, ?_, by rw [hdev, stored_phase, hidle]⟩
  have hn : (BitVec.ofNat 32 key.length).toNat = key.length := by rw [BitVec.toNat_ofNat]; omega
  rw [hdev, stored_ops, keyBytes_set_keylen, hn]
  exact keyStore_take hlen hkey

end Sys2Proof.Spec
end

section
/-! SUPPORT. Lanes of digit arithmetic, and the completion of DADD and DSUB (spec/40_digit_arithmetic.md rules R140 to
R146, spec/44_control.md rule R264). -/

namespace Sys2Proof.Machine

/-- R140: lane `k` of `DigitAdd`, below both lengths. -/
theorem digitAdd_getElem? (r : Nat) {a b : Digits} {k : Nat} (h : k < min a.length b.length) :
    (digitAdd r a b)[k]? = some ((a.getD k 0 + b.getD k 0) % r) := by
  rw [List.getElem?_eq_getElem (by rwa [digitAdd_length]), digitAdd_getElem, List.getD_eq_getElem _ _ (by omega),
    List.getD_eq_getElem _ _ (by omega)]

/-- R141: lane `k` of `DigitSub` as an integer; the remainder is never negative, so nothing is lost in taking it as a
natural. -/
theorem digitSub_getElem_cast {r : Nat} (hr : 0 < r) (a b : Digits) (k : Nat) (h : k < (digitSub r a b).length) :
    (((digitSub r a b)[k] : Nat) : Int) =
      (((a[k]'(by simp at h; omega) : Nat) : Int) - ((b[k]'(by simp at h; omega) : Nat) : Int)) % (r : Int) := by
  rw [digitSub_getElem, Int.toNat_of_nonneg (Int.emod_nonneg _ (by omega))]

/-- R141 on digits: the difference, plus `r` where it is negative. -/
theorem lane_sub_of_digits {r x y c : Nat} (hx : x < r) (hy : y < r) (hc : (c : Int) = ((x : Int) - y) % r) :
    c = if y ≤ x then x - y else x + r - y := by
  split
  · rw [Int.emod_eq_of_lt (by omega) (by omega)] at hc
    omega
  · rw [← Int.add_emod_right, Int.emod_eq_of_lt (by omega) (by omega)] at hc
    omega

/-- R141 for general naturals: adding `r * ceil(y/r)` first keeps the difference from going below 0 and leaves its
remainder. -/
theorem lane_sub_ceil {r x y c : Nat} (hr : 0 < r) (hc : (c : Int) = ((x : Int) - y) % r) :
    c = (x + r * ((y + r - 1) / r) - y) % r := by
  have hy : y ≤ r * ((y + r - 1) / r) := by
    simpa only [Nat.ceilDiv_eq_add_pred_div, smul_eq_mul] using le_smul_ceilDiv (b := y) hr
  zify [show y ≤ x + r * ((y + r - 1) / r) by omega]
  rw [hc, add_sub_right_comm, Int.add_mul_emod_self_left]

end Sys2Proof.Machine

namespace Sys2Proof.Spec

open Sys2Proof.Machine

/-- Settles O20: the length and the lane of a zip of the operands. -/
theorem digitAddIsElementwise : Obligations.DigitAddIsElementwise :=
  fun r a b _ => ⟨digitAdd_length r a b, fun _ hk => digitAdd_getElem? r hk⟩

/-- Settles O21: the lane is the remainder of the integer difference, which gives the rule's other two forms. -/
theorem digitSubIsNormalized : Obligations.DigitSubIsNormalized := by
  refine fun r a b hr => ⟨digitSub_length r a b, fun k hk => ?_⟩
  have hk' : k < (digitSub r a b).length := by rwa [digitSub_length]
  have hc := digitSub_getElem_cast (by omega) a b k hk'
  rw [List.getD_eq_getElem _ _ (by omega), List.getD_eq_getElem _ _ (by omega)]
  exact ⟨_, List.getElem?_eq_getElem hk', digitSub_lt (by omega) (List.getElem_mem hk'), hc,
    fun hx hy => lane_sub_of_digits hx hy hc, lane_sub_ceil (by omega) hc⟩

/-- Settles O22, by the two laws of R146. -/
theorem digitAddAndSubCancel : Obligations.DigitAddAndSubCancel :=
  fun _ _ _ ha _ hl => ⟨digitSub_digitAdd hl ha, digitAdd_digitSub hl ha⟩

/-- R264: a command whose result is digits completes with OK, the digits in the first cells of OUT, and nothing else
changed. The digits are below RADIX, so a cell holds each of them whole. -/
theorem exec_completedOk {i : Instr} {s : State} {u : Digits} {d : Nat → Nat} (hinv : s.Inv)
    (hres : result i s.maxLen s.ops = .ok u) (hd : ∀ k (hk : k < u.length), u[k] = d k) :
    ∃ t, exec i s = .next t ∧ completedOk s t (cellsWritten i s.ops) d := by
  obtain ⟨-, ⟨-, hout, -⟩, -⟩ := hinv
  obtain ⟨hlen, -, hdigit⟩ := result_ok hres
  rw [exec_eq, hres, ← hlen]
  refine ⟨_, rfl, completeOk_sameBeyond s u, rfl, rfl, rfl, rfl, fun k hk => ?written, fun k hk => ?frame⟩
  case written =>
    have hlt : u[k] < 2 ^ 32 := (hdigit _ (List.getElem_mem hk)).trans s.ops.radix.isLt
    have hread := Memory.read_writeDigits_same hout 0 u hk
    rw [Nat.zero_add] at hread
    rw [State.complete_ok, State.completeOk_outBuf, hread, BitVec.toNat_ofNat, Nat.mod_eq_of_lt hlt, hd k hk]
  case frame => exact Memory.read_writeDigits_other hout u (.inr (by omega))

/-- R292: operands that are ready for DADD and DSUB pass the checks. -/
theorem checkedArith_of_ready {s : State} (h : arithReady s) (body : Result) :
    s.ops.checkedArith s.maxLen body = body := by
  obtain ⟨hr, hlen, hdig⟩ := h
  exact checkedArith_of body hr hlen (badDigit_eq_false_iff.mpr hdig)

/-- Settles O8: DADD's result is `DigitAdd` of the two operands in IN, lane by lane. -/
theorem daddCompletesWithTheSums : Obligations.DaddCompletesWithTheSums := by
  intro s hinv hready
  refine exec_completedOk (i := .dadd) hinv (checkedArith_of_ready hready _) fun k hk => ?_
  rw [digitAdd_getElem, cells_getElem, cells_getElem, Nat.zero_add]
  rfl

/-- Settles O9: DSUB's result is `DigitSub` of the two operands in IN, and ready operands are digits (R144). -/
theorem dsubCompletesWithTheDifferences : Obligations.DsubCompletesWithTheDifferences := by
  intro s hinv hready
  refine exec_completedOk (i := .dsub) hinv (checkedArith_of_ready hready _) fun k hk => ?_
  obtain ⟨hr, -, hdig⟩ := hready
  have hc := digitSub_getElem_cast (by omega) _ _ k hk
  rw [cells_getElem, cells_getElem, Nat.zero_add] at hc
  rw [digitSub_length, cells_length, cells_length] at hk
  exact lane_sub_of_digits (hdig _ (by omega)) (hdig _ (by omega)) hc

end Sys2Proof.Spec
end

section
/-! SUPPORT. The laws of SHA-1's padding, of the recurrence of its schedule and of HMAC's pads (spec/41_hmac_sha1.md rules
R160 to R171). -/

namespace Sys2Proof.Machine

/-- R12: `BE32` holds the low 32 bits of the number. -/
theorem beNat_be32_eq_mod (v : Nat) : beNat (be32 v) = v % 2 ^ 32 := by
  simp only [be32, le32, List.reverse_cons, List.reverse_nil, List.nil_append, List.cons_append, beNat, List.foldl_cons,
    List.foldl_nil, BitVec.toNat_ofNat]
  omega

/-- R161: `BE64` read big-endian is the number. -/
theorem beNat_be64 {v : Nat} (hv : v < 2 ^ 64) : beNat (be64 v) = v := by
  rw [be64, beNat_append, be32_length, beNat_be32 (by omega), beNat_be32_eq_mod]
  omega

/-- R161: the padding fills the last block. -/
theorem sha1Pad_length_mod (m : List Byte) : (sha1Pad m).length % 64 = 0 := by
  simp only [sha1Pad, List.length_append, List.length_singleton, List.length_replicate, be64_length]
  omega

/-- R162, R165: sixteen words of the block and 64 more. -/
@[simp] theorem sha1Schedule_length (b : List Byte) : (sha1Schedule b).length = 80 := by simp [sha1Schedule]

/-- Extending the schedule leaves word `k` where it is; the words given to `sha1Extend` have the newest first (R165). -/
theorem sha1Extend_reverse_getD_old (n : Nat) {ws : List Word} {k : Nat} (hk : k < ws.length) :
    (sha1Extend n ws).reverse.getD k 0 = ws.getD (ws.length - 1 - k) 0 := by
  obtain ⟨t, ht⟩ := sha1Extend_reverse n ws
  rw [ht, List.getD_append _ _ _ _ (by rwa [List.length_reverse]), List.getD_reverse _ hk]

/-- R165: every word that `sha1Extend` adds to at least sixteen follows the recurrence. -/
theorem sha1Extend_reverse_getD_new (n : Nat) {ws : List Word} (hws : 16 ≤ ws.length) {t : Nat} (hge : ws.length ≤ t)
    (hlt : t < ws.length + n) :
    (sha1Extend n ws).reverse.getD t 0 =
      rotl 1 ((sha1Extend n ws).reverse.getD (t - 3) 0 ^^^ (sha1Extend n ws).reverse.getD (t - 8) 0 ^^^
        (sha1Extend n ws).reverse.getD (t - 14) 0 ^^^ (sha1Extend n ws).reverse.getD (t - 16) 0) := by
  induction n generalizing ws with
  | zero => omega
  | succ n ih =>
    rw [sha1Extend]
    rcases hge.eq_or_lt with rfl | hgt
    · -- The added word has index `ws.length`; the word `j + 1` before it stands at place `j` of `ws`, the newest first.
      have hback (j : Nat) (hj : j < 16) (w : Word) :
          (sha1Extend n (w :: ws)).reverse.getD (ws.length - (j + 1)) 0 = ws.getD j 0 := by
        have hidx : ws.length + 1 - 1 - (ws.length - (j + 1)) = j + 1 := by omega
        rw [sha1Extend_reverse_getD_old _ (by rw [List.length_cons]; omega), List.length_cons, hidx, List.getD_cons_succ]
      rw [hback 2 (by omega), hback 7 (by omega), hback 13 (by omega), hback 15 (by omega),
        sha1Extend_reverse_getD_old _ (by simp)]
      simp
    · exact ih (by rw [List.length_cons]; omega) hgt (by rw [List.length_cons]; omega)

/-- R171: the padded key has 64 bytes. -/
theorem hmacKey_length {key : List Byte} (h : key.length ≤ 64) : (hmacKey key).length = 64 := by
  simp only [hmacKey, Config.keyMax, List.length_append, List.length_replicate]
  omega

/-- R171: a byte past the key's end is 0. -/
theorem hmacKey_getD (key : List Byte) (t : Nat) : (hmacKey key).getD t 0#8 = key.getD t 0#8 := by
  rcases lt_or_ge t key.length with h | h
  · rw [hmacKey, List.getD_append _ _ _ _ h]
  · rw [hmacKey, List.getD_append_right _ _ _ _ h, List.getD_eq_default key 0#8 h, List.getD_eq_getElem?_getD,
      List.getElem?_getD_replicate_default_eq]

/-- R171: ipad and opad, byte by byte. -/
theorem hmacKey_map_xor {key : List Byte} (h : key.length ≤ 64) (c : Byte) :
    (hmacKey key).map (· ^^^ c) = (List.range 64).map (fun t => key.getD t 0#8 ^^^ c) := by
  refine List.ext_getElem (by simp [hmacKey_length h]) fun t ht _ => ?_
  rw [List.length_map] at ht
  rw [List.getElem_map, List.getElem_map, List.getElem_range, ← hmacKey_getD, List.getD_eq_getElem _ _ ht]

/-- 95_test_vectors.md §1: zero bytes up to 64 do not change the padded key. -/
theorem hmacKey_append_zeros {key : List Byte} {z : Nat} (h : key.length + z ≤ 64) :
    hmacKey (key ++ List.replicate z 0#8) = hmacKey key := by
  rw [hmacKey, hmacKey, List.append_assoc, List.replicate_append_replicate, List.length_append, List.length_replicate]
  congr 2
  simp only [Config.keyMax]
  omega

/-- R160: the rotation in the rule's words. -/
theorem rotl_toNat (n : Nat) (x : Word) :
    (rotl n x).toNat = (x.toNat <<< n ||| x.toNat >>> (32 - n)) % 2 ^ 32 := by
  have hlow : x.toNat >>> (32 - n) < 2 ^ 32 := (Nat.shiftRight_le _ _).trans_lt x.isLt
  rw [rotl, BitVec.toNat_or, BitVec.toNat_shiftLeft, BitVec.toNat_ushiftRight, Nat.or_mod_two_pow, Nat.mod_eq_of_lt hlow]

/-- R165: the compression runs the 80 steps over the block's schedule. -/
theorem sha1Steps_schedule (h : HashWords) (block : List Byte) :
    sha1Steps 0 (sha1Schedule block) h =
      (List.range 80).foldl (fun g t => sha1Step t ((sha1Schedule block).getD t 0) g) h := by
  simp only [sha1Steps_eq_foldl, sha1Schedule_length, Nat.zero_add]

/-- R162, R166: SHA-1 compresses the blocks of the padded message in order. -/
theorem sha1_eq_foldl (m : List Byte) :
    sha1 m = ((List.range ((sha1Pad m).length / 64)).foldl
      (fun h i => sha1Compress h (((sha1Pad m).drop (64 * i)).take 64)) sha1Init).bytes := by
  simp only [sha1, sha1Blocks_eq_map, List.foldl_map]

end Sys2Proof.Machine

namespace Sys2Proof.Spec

open Sys2Proof.Machine

/-- Settles O24: the model's run of zeros is (55 - L) mod 64, and a shorter one leaves the last block short. -/
theorem sha1PaddingIsTheShortest : Obligations.Sha1PaddingIsTheShortest := by
  intro m hm
  refine ⟨(119 - m.length % 64) % 64, Nat.mod_lt _ (by omega), by omega, rfl, be64_length _, beNat_be64 (by omega),
    sha1Pad_length_mod m, fun y hy => by omega⟩

/-- Settles O25: the first sixteen words stay those of the block, and each word after them follows the recurrence. -/
theorem sha1ScheduleFollowsTheRecurrence : Obligations.Sha1ScheduleFollowsTheRecurrence := by
  intro b _
  have hlen : (sha1Words 16 b).reverse.length = 16 := by simp
  refine ⟨sha1Schedule_length b, fun t ht => ?_, fun t hge hlt => ?_⟩
  · obtain ⟨_, hext⟩ := sha1Extend_reverse 64 (sha1Words 16 b).reverse
    rw [sha1Schedule, hext, List.reverse_reverse, List.getD_append _ _ _ _ (by simpa using ht), sha1Words_getD b ht]
  · exact sha1Extend_reverse_getD_new 64 hlen.ge (by omega) (by omega)

/-- Settles O26, by the bytes of the padded key. -/
theorem digestShapeAndKeyPadding : Obligations.DigestShapeAndKeyPadding := by
  refine fun key m => ⟨fun hk => ?_, hmacSha1_length key m, ?_, fun z hz => ?_⟩
  · simp only [hmacSha1, hmacKey_map_xor hk]
  · have hlt := beNat_lt (hmacSha1 key m)
    rw [hmacSha1_length] at hlt
    exact hlt.trans_eq (by norm_num)
  · simp only [hmacSha1, hmacKey_append_zeros hz]

/-- Settles O60: the compression and the digest are the model's folds, and `f_t` and `K_t` are read off range by range. -/
theorem sha1IsTheRulesLoop : Obligations.Sha1IsTheRulesLoop := by
  refine ⟨fun x n _ _ => rotl_toNat n x, rfl, fun t b c d => ⟨?_, ?_, ?_, ?_⟩, fun h block _ => ⟨_, rfl, ?_⟩,
    fun m => ⟨_, rfl, sha1_eq_foldl m⟩⟩
  · intro h
    simp [sha1F, sha1K, show t < 20 by omega]
  · intro h h'
    simp [sha1F, sha1K, show ¬t < 20 by omega, show t < 40 by omega]
  · intro h h'
    simp [sha1F, sha1K, show ¬t < 20 by omega, show ¬t < 40 by omega, show t < 60 by omega]
  · intro h h'
    simp [sha1F, sha1K, show ¬t < 20 by omega, show ¬t < 40 by omega, show ¬t < 60 by omega]
  · rw [sha1Compress, sha1Steps_schedule]
    rfl

end Sys2Proof.Spec
end

section
/-! SUPPORT. Packing, the bounds of CPH and the closed form of the round function, and the completion of RFN
(spec/42_round_function.md rules R200 to R211, spec/44_control.md rule R264). -/

namespace Sys2Proof.Machine

/-- R200, R201: one value that does not pack makes the whole message fail. -/
theorem packAll_encoding {vs : List Nat} (h : ∃ v ∈ vs, Config.packMax < v) : packAll vs = .error .encoding := by
  cases hp : packAll vs with
  | error e =>
    obtain ⟨rfl, -⟩ := packAll_error hp
    rfl
  | ok p =>
    obtain ⟨hall, -⟩ := packAll_eq_ok_iff.mp hp
    obtain ⟨v, hv, hlt⟩ := h
    exact absurd (hall v hv) (Nat.not_le.mpr hlt)

/-- R209: packing comes first, so its failure is the round function's, whatever the output length. -/
theorem roundFn_encoding {key : List Byte} {r i l : Nat} {s : Digits} (h : ∃ v ∈ i :: s, Config.packMax < v) :
    roundFn key r i s l = .error .encoding := by
  rw [roundFn, packAll_encoding h]

/-- R205: powers grow with the exponent, so the exponents that fit are those up to CPH. -/
theorem le_cph_iff {r : Nat} (hr : 2 ≤ r) (k : Nat) : k ≤ cph r ↔ r ^ k ≤ Config.digestRange := by
  obtain ⟨hfits, hnext⟩ := cph_spec hr
  constructor
  · intro hk
    exact (Nat.pow_le_pow_right (by omega) hk).trans hfits
  · intro hpow
    exact Nat.lt_succ_iff.mp ((Nat.pow_lt_pow_iff_right hr).mp (hpow.trans_lt hnext))

/-- R202, R203: the prefix of message `j + 1` is digest `j` of the chain. -/
theorem messagePrefix_succ (key p : List Byte) (j : Nat) : messagePrefix key p (j + 1) = Spec.digestChain key p j := by
  induction j with
  | zero => rfl
  | succ j ih => rw [messagePrefix, ih, Spec.digestChain]

/-- R207, R210: on values that pack the loop of `RoundFn` makes the digits of the closed form. -/
theorem roundFn_eq_closedDigits (key : List Byte) {r i : Nat} (l : Nat) {s : Digits} (hr : 2 ≤ r) (hr' : r < 2 ^ 32)
    (hs : ∀ v ∈ i :: s, v ≤ Config.packMax) :
    roundFn key r i s l = .ok ((List.range l).map (Spec.closedDigit key r i s)) := by
  rcases roundFn_cases key hr hr' i s l with ⟨⟨v, hv, hlt⟩, -⟩ | ⟨-, f, hf, hlen, -⟩
  · exact absurd (hs v hv) (Nat.not_le.mpr hlt)
  · rw [hf]
    refine congrArg Except.ok (List.ext_getElem (by simp [hlen]) fun k hk _ => ?_)
    rw [roundFn_getElem (cph_pos hr' hr) hf k hk, messagePrefix_succ, List.getElem_map, List.getElem_range,
      Spec.closedDigit]

end Sys2Proof.Machine

namespace Sys2Proof.Spec

open Sys2Proof.Machine

/-- The digits in `IN[0..n-1]` are the numbers of these cells. -/
theorem mem_cells_iff {s : State} {n v : Nat} : v ∈ s.ops.cells 0 n ↔ ∃ k < n, inCell s k = v := by
  simp [Operands.cells, inCell]

/-- R292: operands that are ready for RFN pass the checks. -/
theorem rfnResult_of_ready {s : State} (h : roundReady s) :
    rfnResult s.maxLen s.ops =
      roundFn s.ops.keyBytes s.ops.radix.toNat s.ops.ridx.toNat (s.ops.cells 0 s.ops.len.toNat) s.ops.olen.toNat := by
  obtain ⟨hkey, hr, hlen, holen, hdig⟩ := h
  exact checkedRound_of _ hkey hr hlen holen (badDigit_eq_false_iff.mpr hdig)

/-- Settles O27, by the two outcomes of packing. -/
theorem baseMessageIsThePackedValues : Obligations.BaseMessageIsThePackedValues := by
  refine fun i s => ⟨fun h => ⟨packAll_eq_ok_iff.mpr ⟨h, List.flatMap_cons.symm⟩, ?_⟩, packAll_encoding⟩
  simp [List.length_flatMap, Nat.mul_comm]

/-- Settles O28: the law of the exponents that fit, and the rule's seventeen values by evaluation. -/
theorem cphIsTheLargestPower : Obligations.CphIsTheLargestPower :=
  ⟨fun _ k hr => le_cph_iff hr k, fun _ => cph_bounds, rfl⟩

/-- Settles O29, by the closed form of the loop. -/
theorem roundFnIsTheClosedForm : Obligations.RoundFnIsTheClosedForm :=
  fun key _ _ l _ => roundFn_eq_closedDigits key l

/-- Settles O10: RFN's result on ready operands that pack is the closed form, digit by digit. -/
theorem rfnCompletesWithTheClosedForm : Obligations.RfnCompletesWithTheClosedForm := by
  intro s hinv hready hridx hcells
  have hpack : ∀ v ∈ s.ops.ridx.toNat :: s.ops.cells 0 s.ops.len.toNat, v ≤ Config.packMax := by
    refine List.forall_mem_cons.mpr ⟨hridx, fun v hv => ?_⟩
    obtain ⟨k, hk, rfl⟩ := mem_cells_iff.mp hv
    exact hcells k hk
  have hres := rfnResult_of_ready hready
  obtain ⟨-, hr, -⟩ := hready
  rw [roundFn_eq_closedDigits _ _ hr s.ops.radix.isLt hpack] at hres
  exact exec_completedOk (i := .rfn) hinv hres fun k hk => by rw [List.getElem_map, List.getElem_range]

/-- Settles O11: the value that does not pack is the round index or a digit of IN, and packing comes before every
digest. -/
theorem rfnReportsWhatItCannotPack : Obligations.RfnReportsWhatItCannotPack := by
  intro s hready hlarge
  have hpack : ∃ v ∈ s.ops.ridx.toNat :: s.ops.cells 0 s.ops.len.toNat, Config.packMax < v := by
    rcases hlarge with hridx | ⟨k, hk, hcell⟩
    · exact ⟨_, List.mem_cons_self, hridx⟩
    · exact ⟨_, List.mem_cons_of_mem _ (mem_cells_iff.mpr ⟨k, hk, rfl⟩), hcell⟩
  have hres : result .rfn s.maxLen s.ops = .error .encoding :=
    (rfnResult_of_ready hready).trans (roundFn_encoding hpack)
  rw [exec_eq, hres]
  rfl

end Sys2Proof.Spec
end

section
/-! SUPPORT. The Feistel rounds as loops that stop at the first failure, and the completion of ENC and DEC
(spec/43_feistel.md rules R231 to R239, spec/44_control.md rule R264). -/

namespace Sys2Proof.Machine

/-- R209, R210: packing is the only thing in `RoundFn` that can fail. -/
theorem roundFn_eq_encoding_iff {key : List Byte} {r i l : Nat} {s : Digits} :
    roundFn key r i s l = .error .encoding ↔ ∃ v ∈ i :: s, Config.packMax < v := by
  refine ⟨fun h => ?_, roundFn_encoding⟩
  unfold roundFn at h
  cases hp : packAll (i :: s) with
  | error e => exact (packAll_error hp).2
  | ok p => simp [hp] at h

/-- R231: a round of `Encrypt` computes `F`, then the next halves. -/
theorem encRound_eq_bind (key : List Byte) (r i : Nat) (h : Halves) :
    encRound key r i h = roundFn key r i h.2 h.1.length >>= fun f => pure (h.2, digitAdd r h.1 f) := by
  unfold encRound
  cases roundFn key r i h.2 h.1.length <;> rfl

/-- R234: a round of `Decrypt` computes `F`, then the halves before. -/
theorem decRound_eq_bind (key : List Byte) (r i : Nat) (h : Halves) :
    decRound key r i h = roundFn key r i h.1 h.2.length >>= fun f => pure (digitSub r h.2 f, h.1) := by
  unfold decRound
  cases roundFn key r i h.1 h.2.length <;> rfl

/-- R239: a round of `Encrypt` fails exactly when it packs a value that is too large. -/
theorem encRound_eq_encoding_iff {key : List Byte} {r i : Nat} {h : Halves} :
    encRound key r i h = .error .encoding ↔ ∃ v ∈ i :: h.2, Config.packMax < v := by
  rw [← roundFn_eq_encoding_iff (key := key) (r := r) (l := h.1.length), encRound]
  cases roundFn key r i h.2 h.1.length <;> simp

/-- R239: a round of `Decrypt` fails exactly when it packs a value that is too large. -/
theorem decRound_eq_encoding_iff {key : List Byte} {r i : Nat} {h : Halves} :
    decRound key r i h = .error .encoding ↔ ∃ v ∈ i :: h.1, Config.packMax < v := by
  rw [← roundFn_eq_encoding_iff (key := key) (r := r) (l := h.2.length), decRound]
  cases roundFn key r i h.1 h.2.length <;> simp

/-- R231: the rounds of `Encrypt` are a loop over ascending indices. -/
theorem encRounds_eq_foldlM (key : List Byte) (r n : Nat) (h : Halves) :
    encRounds key r n h = (List.range n).foldlM (fun g i => encRound key r i g) h := by
  induction n with
  | zero => rfl
  | succ n ih =>
    rw [List.range_succ, List.foldlM_append, ← ih, encRounds]
    cases encRounds key r n h with
    | error e => rfl
    | ok g => exact (bind_pure (encRound key r n g)).symm

/-- R234: the rounds of `Decrypt` are a loop over descending indices. -/
theorem decRounds_eq_foldlM (key : List Byte) (r n : Nat) (h : Halves) :
    decRounds key r n h = (List.range n).reverse.foldlM (fun g i => decRound key r i g) h := by
  induction n generalizing h with
  | zero => rfl
  | succ n ih =>
    rw [List.range_succ, List.reverse_concat, List.foldlM_cons, decRounds]
    cases decRound key r n h with
    | error e => rfl
    | ok g => exact ih g

/-- R231, R234: an operation ends with its halves joined. -/
theorem joinHalves_eq_map (x : Except ErrCode Halves) : joinHalves x = x.map fun h => h.1 ++ h.2 := by
  cases x <;> rfl

@[simp] theorem joinHalves_eq_error_iff {x : Except ErrCode Halves} {e : ErrCode} :
    joinHalves x = .error e ↔ x = .error e := by
  cases x <;> simp [joinHalves]

/-- A loop fails exactly when some turn that it reaches fails: the turns before it give the value it fails on. -/
theorem foldlM_eq_error_iff {ε σ ι : Type} (f : σ → ι → Except ε σ) (l : List ι) (a : σ) (e : ε) :
    l.foldlM f a = .error e ↔
      ∃ k, ∃ hk : k < l.length, ∃ b, (l.take k).foldlM f a = .ok b ∧ f b l[k] = .error e := by
  induction l generalizing a with
  | nil => simp [pure, Except.pure]
  | cons x l ih =>
    rw [List.foldlM_cons]
    cases hx : f a x with
    | error e' =>
      constructor
      · exact fun h => ⟨0, by simp, a, rfl, hx.trans h⟩
      · rintro ⟨k, hk, b, hb, he⟩
        cases k with
        | zero =>
          cases hb
          exact hx.symm.trans he
        | succ k => simp [hx, bind, Except.bind] at hb
    | ok c =>
      refine (ih c).trans ⟨?_, ?_⟩
      · rintro ⟨k, hk, b, hb, he⟩
        exact ⟨k + 1, by simpa using hk, b, by simpa [hx, bind, Except.bind] using hb, he⟩
      · rintro ⟨k, hk, b, hb, he⟩
        cases k with
        | zero =>
          cases hb
          simp [hx] at he
        | succ k => exact ⟨k, by simpa using hk, b, by simpa [hx, bind, Except.bind] using hb, he⟩

/-- R239: `Encrypt` raises ERR_ENCODING exactly when a round that it reaches packs a value that is too large. -/
theorem encrypt_eq_encoding_iff {key : List Byte} {r rounds : Nat} {v : Digits} :
    encrypt key r rounds v = .error .encoding ↔ Spec.encryptFails key r rounds v := by
  have hreach (k : Nat) (hk : k ≤ rounds) : (List.range rounds).take k = List.range k := by
    rw [List.take_range, Nat.min_eq_left hk]
  rw [encrypt, joinHalves_eq_error_iff, encRounds_eq_foldlM, foldlM_eq_error_iff]
  constructor
  · rintro ⟨k, hk, g, hg, he⟩
    rw [List.length_range] at hk
    rw [hreach k hk.le, ← encRounds_eq_foldlM] at hg
    rw [List.getElem_range] at he
    exact ⟨k, hk, g, hg, encRound_eq_encoding_iff.mp he⟩
  · rintro ⟨k, hk, g, hg, he⟩
    refine ⟨k, by rwa [List.length_range], g, ?_, ?_⟩
    · rw [hreach k hk.le, ← encRounds_eq_foldlM]
      exact hg
    · rw [List.getElem_range]
      exact encRound_eq_encoding_iff.mpr he

/-- R239: `Decrypt` raises ERR_ENCODING exactly when a round that it reaches packs a value that is too large. Its turn `k`
has the index `rounds - 1 - k`. -/
theorem decrypt_eq_encoding_iff {key : List Byte} {r rounds : Nat} {w : Digits} :
    decrypt key r rounds w = .error .encoding ↔ Spec.decryptFails key r rounds w := by
  have hindex (k : Nat) (hk : k < (List.range rounds).reverse.length) :
      (List.range rounds).reverse[k] = rounds - 1 - k := by simp
  rw [decrypt, joinHalves_eq_error_iff, decRounds_eq_foldlM, foldlM_eq_error_iff]
  constructor
  · rintro ⟨k, hk, g, hg, he⟩
    rw [hindex] at he
    rw [List.length_reverse, List.length_range] at hk
    refine ⟨rounds - 1 - k, by omega, g, ?_, decRound_eq_encoding_iff.mp he⟩
    simpa only [Spec.decHalves, show rounds - 1 - (rounds - 1 - k) = k by omega] using hg
  · rintro ⟨i, hi, g, hg, he⟩
    refine ⟨rounds - 1 - i, by rw [List.length_reverse, List.length_range]; omega, g, hg, ?_⟩
    rw [hindex, show rounds - 1 - (rounds - 1 - i) = i by omega]
    exact decRound_eq_encoding_iff.mpr he

/-- R239: with a radix and a round count of at most `2^31` `Encrypt` succeeds. -/
theorem encrypt_ok (key : List Byte) {r rounds : Nat} {v : Digits} (hr : 2 ≤ r) (hr' : r ≤ 2 ^ 31)
    (hn : rounds ≤ 2 ^ 31) (hv : ∀ d ∈ v, d < r) : ∃ w, encrypt key r rounds v = .ok w := by
  obtain ⟨g, hg⟩ := encRounds_ok key hr hr' hn (digitHalves_splitAt (k := v.length / 2) hv)
  exact ⟨g.1 ++ g.2, by rw [encrypt, hg, joinHalves]⟩

/-- R239: with a radix and a round count of at most `2^31` `Decrypt` succeeds. -/
theorem decrypt_ok (key : List Byte) {r rounds : Nat} {w : Digits} (hr : 2 ≤ r) (hr' : r ≤ 2 ^ 31)
    (hn : rounds ≤ 2 ^ 31) (hw : ∀ d ∈ w, d < r) : ∃ v, decrypt key r rounds w = .ok v := by
  obtain ⟨g, hg⟩ := decRounds_ok key hr hr' hn (digitHalves_splitAt (k := decSplit rounds w.length) hw)
  exact ⟨g.1 ++ g.2, by rw [decrypt, hg, joinHalves]⟩

/-- R235, R236: what `Encrypt` gives when it succeeds. -/
theorem of_encrypt_eq_ok {key : List Byte} {r rounds : Nat} {v w : Digits} (hr : 2 ≤ r) (hr' : r < 2 ^ 32)
    (hv : ∀ d ∈ v, d < r) (h : encrypt key r rounds v = .ok w) :
    w.length = v.length ∧ (∀ d ∈ w, d < r) ∧ decrypt key r rounds w = .ok v := by
  rcases encrypt_cases key hr hr' rounds hv with he | ⟨w', he, hw'⟩ <;> cases h.symm.trans he
  exact hw'

/-- R235, R236: what `Decrypt` gives when it succeeds. -/
theorem of_decrypt_eq_ok {key : List Byte} {r rounds : Nat} {w v : Digits} (hr : 2 ≤ r) (hr' : r < 2 ^ 32)
    (hw : ∀ d ∈ w, d < r) (h : decrypt key r rounds w = .ok v) :
    v.length = w.length ∧ (∀ d ∈ v, d < r) ∧ encrypt key r rounds v = .ok w := by
  rcases decrypt_cases key hr hr' rounds hw with he | ⟨v', he, hv'⟩ <;> cases h.symm.trans he
  exact hv'

end Sys2Proof.Machine

namespace Sys2Proof.Spec

open Sys2Proof.Machine

/-- R292: operands that are ready for ENC and DEC pass the checks. -/
theorem checkedFeistel_of_ready {s : State} (h : feistelReady s) (body : Result) :
    s.ops.checkedFeistel s.maxLen body = body := by
  obtain ⟨hkey, hr, hrounds, hlen, hmax, hdig⟩ := h
  exact checkedFeistel_of body hkey hr (by omega) hlen hmax (badDigit_eq_false_iff.mpr hdig)

/-- R237: past its checks ENC's result is `Encrypt`'s. -/
theorem encResult_of_ready {s : State} (h : feistelReady s) : result .enc s.maxLen s.ops = cipherOf s :=
  checkedFeistel_of_ready h _

/-- R238: past its checks DEC's result is `Decrypt`'s. -/
theorem decResult_of_ready {s : State} (h : feistelReady s) : result .dec s.maxLen s.ops = plainOf s :=
  checkedFeistel_of_ready h _

/-- R292: operands that are ready for ENC and DEC hold digits below a legal radix. -/
theorem digits_of_ready {s : State} (h : feistelReady s) :
    2 ≤ s.ops.radix.toNat ∧ s.ops.radix.toNat < 2 ^ 32 ∧ ∀ d ∈ s.ops.cells 0 s.ops.len.toNat, d < s.ops.radix.toNat := by
  obtain ⟨-, hr, -, -, -, hdig⟩ := h
  exact ⟨hr, s.ops.radix.isLt, cells_digits (badDigit_eq_false_iff.mpr hdig) (Nat.zero_add _).le⟩

/-- R264: a command whose only error is ERR_ENCODING completes with its result, or with that code and nothing else. -/
theorem exec_result_or_encoding {i : Instr} {s : State} {x : Result} (hinv : s.Inv)
    (hres : result i s.maxLen s.ops = x) (hx : x = .error .encoding ∨ ∃ u, x = .ok u) :
    (∃ u t, x = .ok u ∧ exec i s = .next t ∧ completedOk s t (cellsWritten i s.ops) (fun k => u.getD k 0)) ∨
      (x = .error .encoding ∧ exec i s = .next (completedError s .encoding)) := by
  rcases hx with rfl | ⟨u, rfl⟩
  · refine .inr ⟨rfl, ?_⟩
    rw [exec_eq, hres]
    rfl
  · obtain ⟨t, ht, hok⟩ := exec_completedOk hinv hres fun k hk => (List.getD_eq_getElem u 0 hk).symm
    exact .inl ⟨u, t, rfl, ht, hok⟩

/-- ENC past its checks, for every radix and round count (R237, R239). -/
theorem exec_enc_outcome {s : State} (hinv : s.Inv) (h : feistelReady s) :
    (∃ w t, cipherOf s = .ok w ∧ exec .enc s = .next t ∧ completedOk s t s.ops.len.toNat (fun k => w.getD k 0)) ∨
      (cipherOf s = .error .encoding ∧ exec .enc s = .next (completedError s .encoding)) := by
  obtain ⟨hr, hr', hd⟩ := digits_of_ready h
  refine exec_result_or_encoding hinv (encResult_of_ready h) ?_
  exact (encrypt_cases _ hr hr' _ hd).imp_right fun ⟨w, hw, _⟩ => ⟨w, hw⟩

/-- DEC past its checks, for every radix and round count (R238, R239). -/
theorem exec_dec_outcome {s : State} (hinv : s.Inv) (h : feistelReady s) :
    (∃ v t, plainOf s = .ok v ∧ exec .dec s = .next t ∧ completedOk s t s.ops.len.toNat (fun k => v.getD k 0)) ∨
      (plainOf s = .error .encoding ∧ exec .dec s = .next (completedError s .encoding)) := by
  obtain ⟨hr, hr', hd⟩ := digits_of_ready h
  refine exec_result_or_encoding hinv (decResult_of_ready h) ?_
  exact (decrypt_cases _ hr hr' _ hd).imp_right fun ⟨v, hv, _⟩ => ⟨v, hv⟩

/-- Settles O14: the two outcomes of each cipher carried to the command. -/
theorem cipherOutcomeForEveryRadix : Obligations.CipherOutcomeForEveryRadix :=
  fun _ hinv h => ⟨exec_enc_outcome hinv h, exec_dec_outcome hinv h⟩

/-- Settles O12: at these sizes every round packs, so the outcome is a ciphertext. -/
theorem encCompletesWithTheCiphertext : Obligations.EncCompletesWithTheCiphertext := by
  intro s hinv h hr' hn
  obtain ⟨hr, -, hd⟩ := digits_of_ready h
  obtain ⟨w, hw⟩ : ∃ w, cipherOf s = .ok w := encrypt_ok _ hr hr' hn hd
  refine (exec_enc_outcome hinv h).resolve_right fun ⟨he, _⟩ => ?_
  exact nomatch hw.symm.trans he

/-- Settles O13: at these sizes every round packs, so the outcome is a plaintext. -/
theorem decCompletesWithThePlaintext : Obligations.DecCompletesWithThePlaintext := by
  intro s hinv h hr' hn
  obtain ⟨hr, -, hd⟩ := digits_of_ready h
  obtain ⟨v, hv⟩ : ∃ v, plainOf s = .ok v := decrypt_ok _ hr hr' hn hd
  refine (exec_dec_outcome hinv h).resolve_right fun ⟨he, _⟩ => ?_
  exact nomatch hv.symm.trans he

/-- Settles O30, by the loop of the rounds. -/
theorem encryptIsTheAscendingLoop : Obligations.EncryptIsTheAscendingLoop := by
  intro key r rounds v
  simp only [encrypt, joinHalves_eq_map, encRounds_eq_foldlM, encRound_eq_bind, splitAt]

/-- Settles O31, by the loop of the rounds. -/
theorem decryptIsTheDescendingLoop : Obligations.DecryptIsTheDescendingLoop := by
  rintro key r rounds w f rfl
  simp only [decrypt, joinHalves_eq_map, decRounds_eq_foldlM, decRound_eq_bind, splitAt, decSplit]

/-- Settles O32: the rounds swap the lengths of the halves, and `RoundFn` gives as many digits as it is asked for. -/
theorem halvesKeepTheirLengths : Obligations.HalvesKeepTheirLengths := by
  intro key r n v g hr hr' hv hg
  have hlen : (g.1.length, g.2.length) = halfLengths n (splitAt (v.length / 2) v) := by
    rcases encRounds_cases key hr hr' n (digitHalves_splitAt (k := v.length / 2) hv) with he | ⟨g', hg', -, hl, -⟩
    · exact nomatch hg.symm.trans he
    · cases hg.symm.trans hg'
      exact hl
  have hmin : min (v.length / 2) v.length = v.length / 2 := by omega
  simp only [halfLengths, splitAt, List.length_take, List.length_drop, hmin] at hlen
  refine ⟨fun hn => ?even, fun hn => ?odd, fun f hf => ?next, fun w hw => ?joined⟩
  case even => simpa [hn] using hlen
  case odd => simpa [hn] using hlen
  case next =>
    rcases roundFn_cases key hr hr' n g.2 g.1.length with ⟨-, he⟩ | ⟨-, f', hf', hl, -⟩
    · exact nomatch hf.symm.trans he
    · cases hf.symm.trans hf'
      exact ⟨hl, by rw [digitAdd_length, hl, Nat.min_self]⟩
  case joined =>
    rw [encrypt, hg] at hw
    cases hw
    rfl

/-- Settles O33: a result of either direction is taken back by the other. -/
theorem decryptInvertsEncrypt : Obligations.DecryptInvertsEncrypt := by
  intro key r rounds v w hr hr' _ _ _ hv hw
  constructor <;> intro h
  case mp =>
    obtain ⟨-, -, hback⟩ := of_encrypt_eq_ok hr hr' hv h
    exact hback
  case mpr =>
    obtain ⟨-, -, hback⟩ := of_decrypt_eq_ok hr hr' hw h
    exact hback

/-- Settles O34: what either direction gives when it succeeds. -/
theorem cipherKeepsShape : Obligations.CipherKeepsShape := by
  rintro key r rounds v w hr hr' hv (h | h)
  · obtain ⟨hlen, hdig, -⟩ := of_encrypt_eq_ok hr hr' hv h
    exact ⟨hlen, hdig⟩
  · obtain ⟨hlen, hdig, -⟩ := of_decrypt_eq_ok hr hr' hv h
    exact ⟨hlen, hdig⟩

/-- Settles O35: each clause is a law of the rounds, and packing is the only cause of failure. -/
theorem encodingFailsExactlyWhenSomethingDoesNotPack : Obligations.EncodingFailsExactlyWhenSomethingDoesNotPack := by
  intro key r rounds v hr hr' hv
  refine ⟨fun hn => ⟨?_, ?_⟩, fun hr31 hn => ?_, encrypt_eq_encoding_iff, decrypt_eq_encoding_iff, ?_⟩
  · rw [encrypt, encRounds_large key hr hr' hn (digitHalves_splitAt hv), joinHalves]
  · rw [decrypt, decRounds_large key hn, joinHalves]
  · obtain ⟨w, hw⟩ := encrypt_ok key hr hr31 hn hv
    obtain ⟨u, hu⟩ := decrypt_ok key hr hr31 hn hv
    exact ⟨w, u, hw, hu⟩
  · rintro e (h | h)
    · rcases encrypt_cases key hr hr' rounds hv with he | ⟨w, he, -⟩ <;> cases h.symm.trans he
      rfl
    · rcases decrypt_cases key hr hr' rounds hv with he | ⟨w, he, -⟩ <;> cases h.symm.trans he
      rfl

/-- R235, R333: a state with the registers and KEY of `s` whose IN holds another digit sequence of length LEN is ready
too, and `Decrypt` runs on that sequence. -/
theorem plainOf_of_replaced {s u : State} {w : Digits} (h : feistelReady s) (hmax : u.maxLen = s.maxLen)
    (hops : u.ops = { s.ops with inBuf := u.ops.inBuf }) (hcells : u.ops.cells 0 s.ops.len.toNat = w)
    (hw : ∀ d ∈ w, d < s.ops.radix.toNat) :
    feistelReady u ∧ plainOf u = decrypt s.ops.keyBytes s.ops.radix.toNat s.ops.rounds.toNat w := by
  obtain ⟨hkeylen, hr, hrounds, hlen, hlenmax, -⟩ := h
  obtain ⟨m, hm⟩ : ∃ m, u.ops = { s.ops with inBuf := m } := ⟨_, hops⟩
  have hdig : ∀ k < s.ops.len.toNat, inCell u k < s.ops.radix.toNat := by
    subst hcells
    exact fun k hk => hw _ (mem_cells_iff.mpr ⟨k, hk, rfl⟩)
  simp only [inCell, hm] at hdig
  rw [hm] at hcells
  subst hcells
  simp only [feistelReady, inDigits, inCell, plainOf, hm, hmax]
  exact ⟨⟨hkeylen, hr, hrounds, hlen, hlenmax, hdig⟩, rfl⟩

/-- Settles O36: the copied cells are the ciphertext, a digit sequence of length LEN, so DEC passes its checks on it and
`Decrypt` takes it back to the plaintext. -/
theorem encCopyDecRoundTrip : Obligations.EncCopyDecRoundTrip := by
  intro s t u hinv h ht hcode hops hmax huinv hcopy
  obtain ⟨hr, hr', hd⟩ := digits_of_ready h
  rcases exec_enc_outcome hinv h with ⟨w, _, hw, ht', hsame, -, -, -, -, hout, -⟩ | ⟨-, ht'⟩ <;>
    cases ht.symm.trans ht'
  case inr => exact nomatch hcode
  case inl =>
    obtain ⟨hlen, hdig, hback⟩ := of_encrypt_eq_ok hr hr' hd hw
    obtain ⟨htmax, htops, -⟩ := hsame
    rw [cells_length] at hlen
    have hcells : u.ops.cells 0 s.ops.len.toNat = w := by
      refine List.ext_getElem (by rw [cells_length, hlen]) fun k hk hk' => ?_
      rw [cells_length] at hk
      rw [cells_getElem, Nat.zero_add, hcopy k hk, hout k hk]
      exact List.getD_eq_getElem _ _ hk'
    rw [htops] at hops
    obtain ⟨hready, hplain⟩ := plainOf_of_replaced h (hmax.trans htmax) hops hcells hdig
    have hres := (decResult_of_ready hready).trans (hplain.trans hback)
    obtain ⟨x, hx, -, -, -, -, hxcode, hxout, -⟩ :=
      exec_completedOk (i := .dec) (d := inCell s) huinv hres fun k hk => by rw [cells_getElem, Nat.zero_add]; rfl
    have hulen : cellsWritten .dec u.ops = s.ops.len.toNat := congrArg (fun o => o.len.toNat) hops
    rw [hulen] at hxout
    exact ⟨x, hx, hxcode, fun k hk => BitVec.eq_of_toNat_eq (hxout k hk)⟩

end Sys2Proof.Spec
end

section
/-! SUPPORT. The result of the accepted command as a function of the state, and a step from every state
(spec/44_control.md rules R263, R264, R267, R272). -/

namespace Sys2Proof.Machine

/-- `Execute(CUR, S)` (R263): the result of the command in CUR, ERR_OPCODE for a reserved word (R113). -/
def State.commandResult (s : State) : Result :=
  match s.command with
  | .ok i => result i s.maxLen s.ops
  | .error _ => .error .opcode

theorem completion_eq (s : State) : completion s = .next (s.complete s.commandResult) := by
  unfold completion State.commandResult
  cases s.command with
  | ok i => exact exec_eq i s
  | error e => rfl

theorem engineStep_complete {s : State} (h : s.phase = .busy) : engineStep s = .next (s.complete s.commandResult) :=
  (engineStep_busy h).trans (completion_eq s)

/-- The engine's turn never stops, in either phase (R272). -/
theorem engineStep_next (s : State) : ∃ t, engineStep s = .next t := by
  cases h : s.phase with
  | idle => exact ⟨s, engineStep_idle h⟩
  | busy => exact ⟨_, engineStep_complete h⟩

/-- A completion sets ERR exactly beside a code other than OK (R264). -/
theorem complete_err (s : State) (r : Result) : (s.complete r).err = decide ((s.complete r).errcode ≠ .ok) := by
  cases r <;> rfl

end Sys2Proof.Machine

namespace Sys2Proof.Spec

open Sys2Proof.Machine

/-- Settles O5: an access and a reset always answer a next state, and so does the engine's turn. -/
theorem stepNeverStops : Obligations.StepNeverStops := by
  intro s
  rcases step_cases s with ⟨-, e⟩ | ⟨_, -, e⟩ | ⟨_, _, -, e⟩ | ⟨_, _, _, _, -, e⟩ | ⟨_, -, e⟩ <;> rw [e]
  · exact engineStep_next s
  · exact engineStep_next s.popEvent
  · exact ⟨_, rfl⟩
  · exact ⟨_, rfl⟩
  · exact ⟨_, rfl⟩

/-- Settles O7: NOP completes with no digits, which leaves OUT as it is. -/
theorem nopCompletesWithOk : Obligations.NopCompletesWithOk :=
  fun s => ⟨_, exec_eq .nop s, rfl, Bool.and_true s.ie⟩

end Sys2Proof.Spec
end

section
/-! SUPPORT. Word writes to CMD, CTRL, STATUS, the operand registers, KEY and IN, by the phase (spec/44_control.md rules
R260 to R262, R265, R268 to R270). -/

namespace Sys2Proof.Machine

/-- A word write at an offset of the map takes effect at its location and answers OKAY (R82). -/
theorem serve_write_at {s : State} {a : Nat} {l : Location} (ha : a < 4096) (h4 : a % 4 = 0) (hl : locate s.maxLen a = l)
    (v : Word) : s.serve (busWrite (BitVec.ofNat 12 a) v) = (s.writeLocation l v).answer (.write .okay) := by
  have hn : (BitVec.ofNat 12 a).toNat = a := by rw [BitVec.toNat_ofNat, Nat.mod_eq_of_lt ha]
  rw [serve_busWrite s (by rwa [hn]), hn, hl]

theorem serve_ctrl (s : State) (v : Word) : s.serve (busWrite 0x004#12 v) = (s.writeCtrl v).answer (.write .okay) :=
  serve_write_at (l := .ctrl) (by decide) rfl (locate_low _ (by decide)) v

theorem serve_status (s : State) (v : Word) : s.serve (busWrite 0x008#12 v) = (s.acknowledge v).answer (.write .okay) :=
  serve_write_at (l := .status) (by decide) rfl (locate_low _ (by decide)) v

theorem serve_cmd (s : State) (v : Word) : s.serve (busWrite 0x00C#12 v) = (s.writeCmd v).answer (.write .okay) :=
  serve_write_at (l := .cmd) (by decide) rfl (locate_low _ (by decide)) v

theorem serve_operand (s : State) (r : OperandReg) (v : Word) :
    s.serve (busWrite (BitVec.ofNat 12 (operandOffset r)) v) = (s.writeOps (s.ops.set r v)).answer (.write .okay) := by
  cases r <;> exact serve_write_at (l := .operand _) (by decide) rfl (locate_low _ (by decide)) v

theorem serve_key (s : State) {w : Nat} (hw : w < 16) (v : Word) :
    s.serve (busWrite (Spec.keyOffset w) v) = (s.writeOps (s.ops.setKey w v)).answer (.write .okay) :=
  serve_write_at (by omega) (by omega) (locate_key _ hw) v

theorem serve_inp (s : State) {k : Nat} (hk : k < s.maxLen) (hn : s.maxLen ≤ 256) (v : Word) :
    s.serve (busWrite (Spec.inOffset k) v) = (s.writeOps (s.ops.setCell k v)).answer (.write .okay) :=
  serve_write_at (by omega) (by omega) (locate_inp hk hn) v

/-- A CTRL write with bit 1 is a soft reset, in either phase (R268). -/
theorem writeCtrl_softReset (s : State) {v : Word} (h : v.getLsbD 1 = true) : s.writeCtrl v = s.resetDevice := by
  rw [State.writeCtrl, bitOf_eq, if_pos h]

/-- A CTRL write without bit 1 replaces IE, in either phase (R270). -/
theorem writeCtrl_ie (s : State) {v : Word} (h : v.getLsbD 1 = false) :
    s.writeCtrl v = { s with ie := v.getLsbD 0 } := by
  rw [State.writeCtrl, bitOf_eq, bitOf_eq, h]
  rfl

/-- A store to operand registers, KEY or IN takes effect while IDLE (R260). -/
theorem answer_writeOps_idle {s : State} (h : s.phase = .idle) (o : Operands) :
    (s.writeOps o).answer (.write .okay) = Spec.stored s o :=
  congrArg (State.answer · (.write .okay)) (writeOps_idle h o)

/-- A store to operand registers, KEY or IN is lost while BUSY (R265). -/
theorem answer_writeOps_busy {s : State} (h : s.phase = .busy) (o : Operands) :
    (s.writeOps o).answer (.write .okay) = Spec.lost s :=
  congrArg (State.answer · (.write .okay)) (writeOps_busy h o)

/-- The offsets of the eight operand registers are those of the map (R32). -/
theorem mem_operandOffsets {a : BitVec 12} (h : a ∈ Spec.operandOffsets) : ∃ r, a = BitVec.ofNat 12 (operandOffset r) := by
  have hmap : Spec.operandOffsets =
      [OperandReg.radix, .rounds, .len, .ridx, .olen, .alen, .blen, .keylen].map (BitVec.ofNat 12 ∘ operandOffset) := rfl
  rw [hmap] at h
  obtain ⟨r, -, rfl⟩ := List.mem_map.mp h
  exact ⟨r, rfl⟩

/-- A write to an operand register while BUSY is lost (R265). -/
theorem serve_operand_busy {s : State} (h : s.phase = .busy) {a : BitVec 12} (ha : a ∈ Spec.operandOffsets) (v : Word) :
    s.serve (busWrite a v) = Spec.lost s := by
  obtain ⟨r, rfl⟩ := mem_operandOffsets ha
  rw [serve_operand, answer_writeOps_busy h]

/-- KEY[w] takes a word at an index of the key store (R45). -/
theorem setKey_of_lt (o : Operands) {w : Nat} (h : w < 16) (v : Word) : o.setKey w v = { o with key := o.key.set w v h } := by
  have hkey : o.key.setIfInBounds w v = o.key.set w v h :=
    Vector.ext fun k hk => by rw [Vector.getElem_setIfInBounds hk, Vector.getElem_set]
  rw [Operands.setKey, hkey]

/-- A word written to a cell of a canonical buffer is read back there, and every other cell is as it was. -/
theorem read_write {m : Memory} {bound : Nat} (h : m.wf bound) (k j : Nat) (v : Word) :
    (m.write k v).read j = if j = k then v else m.read j := by
  obtain ⟨hrising, -⟩ := h
  split
  · next hj => rw [hj, Memory.read_write_same hrising]
  · next hj => exact Memory.read_write_other hrising v hj

end Sys2Proof.Machine

namespace Sys2Proof.Spec

open Sys2Proof.Machine

/-- Settles O37: the CMD write while IDLE is the acceptance of the word. -/
theorem acceptanceLatchesTheCommand : Obligations.AcceptanceLatchesTheCommand := fun _ w h => serve_cmd_idle h w

/-- Settles O41: the soft reset keeps MAX_LEN and the steps still to come, and nothing else. -/
theorem softResetGivesTheResetState : Obligations.SoftResetGivesTheResetState := by
  intro s v h
  rw [serve_ctrl, writeCtrl_softReset s h]
  exact ⟨rfl, rfl⟩

/-- Settles O42: a flag written 1 is cleared, one written 0 stays. -/
theorem acknowledgeClearsTheFlagsWrittenOne : Obligations.AcknowledgeClearsTheFlagsWrittenOne := by
  intro s v
  have hflag (b c : Bool) : (b && !c) = if c then false else b := by cases c <;> simp
  rw [serve_status]
  simp only [State.acknowledge, State.answer, bitOf_eq, hflag]

/-- Settles O43: without bit 1 a CTRL write only replaces IE. -/
theorem ctrlWriteSetsIe : Obligations.CtrlWriteSetsIe := by
  intro s v h
  rw [serve_ctrl, writeCtrl_ie s h]
  rfl

/-- Settles O38: a write to each operand location is one store while IDLE, and IN stays a canonical buffer. -/
theorem idleWritesStore : Obligations.IdleWritesStore := by
  intro s v hp hn
  have hstore (r : OperandReg) :
      s.serve (busWrite (BitVec.ofNat 12 (operandOffset r)) v) = stored s (s.ops.set r v) :=
    (serve_operand s r v).trans (answer_writeOps_idle hp _)
  refine ⟨engineStep_idle hp, fun h => ctrlWriteSetsIe s v h, hstore .radix, hstore .rounds, hstore .len, hstore .ridx,
    hstore .olen, hstore .alen, hstore .blen, hstore .keylen, fun w hw => ?key, fun k hk => ?inp⟩
  case key => rw [serve_key s hw, answer_writeOps_idle hp, setKey_of_lt]
  case inp =>
    refine ⟨s.ops.inBuf.write k v, (serve_inp s hk hn v).trans (answer_writeOps_idle hp _), ?_⟩
    rintro ⟨hin, -⟩ j
    exact read_write hin k j v

/-- Settles O39: the write to CMD is an overrun while BUSY, and so is a store. -/
theorem writesWhileBusyAreLost : Obligations.WritesWhileBusyAreLost := by
  refine fun s v hp hn => ⟨?cmd, fun a ha => serve_operand_busy hp ha v, fun w hw => ?key, fun k hk => ?inp⟩
  case cmd =>
    rw [serve_cmd, writeCmd_busy hp]
    rfl
  case key => rw [serve_key s hw, answer_writeOps_busy hp]
  case inp => rw [serve_inp s hk hn, answer_writeOps_busy hp]

end Sys2Proof.Spec
end

section
/-! SUPPORT. A running command between its acceptance and its completion (spec/20_memory.md rule R97, spec/44_control.md
rules R263 to R265, R271, R272). -/

namespace Sys2Proof.Machine

/-- `t` still runs the command of `s`: it is BUSY, with the command word, the operands and the OUT cells of `s`. -/
def State.stillRuns (s t : State) : Prop :=
  t.phase = .busy ∧ t.ops = s.ops ∧ t.outBuf = s.outBuf ∧ t.cur = s.cur ∧ t.maxLen = s.maxLen

theorem State.stillRuns.busy {s t : State} (h : s.stillRuns t) : t.phase = .busy := h.1

theorem State.stillRuns.trans {s t u : State} (hst : s.stillRuns t) (htu : t.stillRuns u) : s.stillRuns u := by
  obtain ⟨-, hops, hout, hcur, hmax⟩ := hst
  obtain ⟨hp, hops', hout', hcur', hmax'⟩ := htu
  exact ⟨hp, hops'.trans hops, hout'.trans hout, hcur'.trans hcur, hmax'.trans hmax⟩

/-- The result is a function of the command word and of the operands (R263). -/
theorem State.stillRuns.commandResult_eq {s t : State} (h : s.stillRuns t) : t.commandResult = s.commandResult := by
  obtain ⟨-, hops, -, hcur, hmax⟩ := h
  simp only [State.commandResult, State.command_eq, hops, hcur, hmax]

/-- The OUT cells, ERR and ERRCODE after a completion depend on the OUT cells before and on the result alone (R264). -/
theorem complete_congr {s t : State} (h : t.outBuf = s.outBuf) (r : Result) :
    (t.complete r).outBuf = (s.complete r).outBuf ∧ (t.complete r).errcode = (s.complete r).errcode ∧
      (t.complete r).err = (s.complete r).err := by
  cases r with
  | ok u => exact ⟨congrArg (Memory.writeDigits · 0 u) h, rfl, rfl⟩
  | error c => exact ⟨h, rfl, rfl⟩

/-- A step that is neither the engine's turn nor a reset leaves the running command as it is (R97, R262, R265). -/
theorem step_stillRuns {s : State} {e : Event} {rest : List Event} (hp : s.phase = .busy) (h : s.pending = e :: rest)
    (he : e ≠ .engine) (hr : resets e = false) : ∃ t, step s = .next t ∧ s.stillRuns t ∧ t.pending = rest := by
  cases e with
  | access a =>
    obtain ⟨hphase, hops, hout, hcur, hmax, hpend⟩ := serve_busy (s := { s with pending := rest }) hp hr
    exact ⟨_, step_access h, ⟨hphase, hops, hout, hcur, hmax⟩, hpend⟩
  | master addr size op =>
    obtain ⟨hphase, hops, hout, hcur, hmax, hpend⟩ := serveMaster_busy (s := { s with pending := rest }) hp hr
    exact ⟨_, step_master h, ⟨hphase, hops, hout, hcur, hmax⟩, hpend⟩
  | engine => exact absurd rfl he
  | hardReset => exact nomatch hr

/-- Any number of such steps leaves the running command as it is. -/
theorem run_stillRuns {s : State} {evs rest : List Event} (hp : s.phase = .busy) (h : s.pending = evs ++ rest)
    (hevs : ∀ e ∈ evs, e ≠ .engine ∧ resets e = false) :
    ∃ t : State, core.run evs.length s = .next t ∧ s.stillRuns t ∧ t.pending = rest := by
  induction evs generalizing s with
  | nil => exact ⟨s, rfl, ⟨hp, rfl, rfl, rfl, rfl⟩, h⟩
  | cons e evs ih =>
    obtain ⟨⟨he, hr⟩, hevs⟩ := List.forall_mem_cons.mp hevs
    obtain ⟨t, ht, hst, hpend⟩ := step_stillRuns hp h he hr
    obtain ⟨u, hu, htu, hrest⟩ := ih hst.busy hpend hevs
    exact ⟨u, (run_succ ht _).trans hu, hst.trans htu, hrest⟩

/-- No access touches the steps still to come, not even a soft reset (log entry 15). -/
theorem serve_pending (s : State) (a : Access) : (s.serve a).pending = s.pending := by
  rcases serve_cases s a with ⟨r, e⟩ | ⟨-, strb, v, -, e⟩ <;> rw [e]
  · rfl
  rcases writeLocation_cases s (s.locateAccess a) v with ⟨e, -⟩ | ⟨e, -⟩ | ⟨e, -⟩ | ⟨e, -⟩ | ⟨e, -⟩ | ⟨e, -⟩ | ⟨-, o, e, -⟩ <;>
    rw [e] <;> rfl

/-- An access and then the engine's turn: the engine finds what the access has left (R271). -/
theorem run_access_engine {s t u : State} {a : Access} {rest : List Event} (h : s.pending = .access a :: .engine :: rest)
    (ht : { s with pending := .engine :: rest }.serve a = t) (hu : engineStep { t with pending := rest } = .next u) :
    core.run 2 s = .next u := by
  have hpend : t.pending = .engine :: rest := by rw [← ht, serve_pending]
  rw [run_succ (step_access h), ht]
  exact run_succ ((step_engine hpend).trans hu) 0

/-- A busy machine that no reset stops completes its command at the engine's first turn (R272). -/
theorem run_completes {s : State} {evs : List Event} (hp : s.phase = .busy) (h : s.pending = evs)
    (hevs : ∀ e ∈ evs, resets e = false) :
    ∃ (k : Nat) (t : State), k ≤ evs.length + 1 ∧ core.run k s = .next t ∧ t.phase = .idle ∧ t.done = true := by
  induction evs generalizing s with
  | nil =>
    exact ⟨1, _, le_rfl, run_succ ((step_nil h).trans (engineStep_complete hp)) 0, State.complete_phase _ _,
      State.complete_done _ _⟩
  | cons e evs ih =>
    obtain ⟨hr, hevs⟩ := List.forall_mem_cons.mp hevs
    by_cases he : e = .engine
    · subst he
      exact ⟨1, _, Nat.le_add_left _ _,
        run_succ ((step_engine h).trans (engineStep_complete (s := { s with pending := evs }) hp)) 0,
        State.complete_phase _ _, State.complete_done _ _⟩
    · obtain ⟨t, ht, hst, hpend⟩ := step_stillRuns hp h he hr
      obtain ⟨k, u, hk, hu, hidle, hdone⟩ := ih hst.busy hpend hevs
      exact ⟨k + 1, u, Nat.succ_le_succ hk, (run_succ ht k).trans hu, hidle, hdone⟩

end Sys2Proof.Machine

namespace Sys2Proof.Spec

open Sys2Proof.Machine

/-- Settles O44: the completion finds the state that the access has left, BUSY after a write to STATUS or to an operand
register and IDLE after a soft reset. -/
theorem accessBeforeCompletionInOneCycle : Obligations.AccessBeforeCompletionInOneCycle := by
  refine fun s v rest hp => ⟨fun h => ?status, fun a ha h => ?operand, fun hv h => ?softReset⟩
  case status =>
    have hrun := run_access_engine h (serve_status _ v) (engineStep_complete hp)
    exact ⟨_, hrun, State.complete_phase _ _, State.complete_done _ _, by rw [complete_err, decide_eq_true_iff]⟩
  case operand =>
    have hlost := serve_operand_busy (s := { s with pending := .engine :: rest }) hp ha v
    have hrun := run_access_engine h hlost (engineStep_complete hp)
    exact ⟨_, hrun, State.complete_ops _ _, (State.complete_ovr _ _).trans rfl, State.complete_phase _ _,
      State.complete_done _ _⟩
  case softReset =>
    obtain ⟨hreset, -⟩ := softResetGivesTheResetState { s with pending := .engine :: rest } v hv
    exact run_access_engine h hreset (engineStep_idle rfl)

/-- Settles O45: the accesses leave the accepted command running, and its result and what it completes to are functions of
what they leave alone. -/
theorem resultIsThatOfTheAcceptedState : Obligations.ResultIsThatOfTheAcceptedState := by
  intro s w evs rest hp hevs h
  obtain ⟨t, hrun, hst, hpend⟩ :=
    run_stillRuns (s := ({ s with pending := evs ++ Event.engine :: rest }.accept w).answer (.write .okay)) rfl rfl
      hevs
  have hacc : (s.accept w).stillRuns { t with pending := rest } := hst
  have hstep : step t = .next ({ t with pending := rest }.complete (s.accept w).commandResult) := by
    rw [step_engine hpend, engineStep_complete hacc.busy, hacc.commandResult_eq]
  obtain ⟨-, hops, hout, hcur, -⟩ := hacc
  obtain ⟨houtBuf, herrcode, herr⟩ := complete_congr hout (s.accept w).commandResult
  have htwo : core.run (evs.length + 1) _ = _ := (run_add hrun 1).trans (run_succ hstep 0)
  exact ⟨_, _, (run_succ (step_cmd_idle hp h) _).trans htwo, completion_eq _, (State.complete_ops _ _).trans hops, houtBuf,
    herrcode, herr, State.complete_done _ _, State.complete_phase _ _, (State.complete_cur _ _).trans hcur,
    State.complete_pending _ _⟩

/-- Settles O46, by induction on the steps still to come. -/
theorem acceptedCommandCompletes : Obligations.AcceptedCommandCompletes := fun _ hp hr => run_completes hp rfl hr

end Sys2Proof.Spec
end

section
/-! SUPPORT. The checks of R292 against the code they give, and the cause of every code that is raised
(spec/60_exceptions.md rules R290 to R294, spec/43_feistel.md rule R239). -/

namespace Sys2Proof.Machine

/-- R209: packing raises ERR_ENCODING only, and nothing else of `RoundFn` can fail. -/
theorem roundFn_error {key : List Byte} {r i l : Nat} {s : Digits} {e : ErrCode} (h : roundFn key r i s l = .error e) :
    e = .encoding := by
  unfold roundFn at h
  cases hp : packAll (i :: s) with
  | error c =>
    obtain ⟨rfl, -⟩ := packAll_error hp
    simpa [hp] using h.symm
  | ok p => simp [hp] at h

theorem encRound_error {key : List Byte} {r i : Nat} {h : Halves} {e : ErrCode} (he : encRound key r i h = .error e) :
    e = .encoding := by
  unfold encRound at he
  cases hf : roundFn key r i h.2 h.1.length with
  | error c =>
    obtain rfl := roundFn_error hf
    simpa [hf] using he.symm
  | ok f => simp [hf] at he

theorem decRound_error {key : List Byte} {r i : Nat} {h : Halves} {e : ErrCode} (he : decRound key r i h = .error e) :
    e = .encoding := by
  unfold decRound at he
  cases hf : roundFn key r i h.1 h.2.length with
  | error c =>
    obtain rfl := roundFn_error hf
    simpa [hf] using he.symm
  | ok f => simp [hf] at he

/-- R239: the only code that `Encrypt` raises, for every radix, is that of a round. -/
theorem encrypt_error {key : List Byte} {r rounds : Nat} {v : Digits} {e : ErrCode}
    (h : encrypt key r rounds v = .error e) : e = .encoding := by
  rw [encrypt, joinHalves_eq_error_iff, encRounds_eq_foldlM, foldlM_eq_error_iff] at h
  obtain ⟨k, hk, g, -, he⟩ := h
  exact encRound_error he

/-- R239: the only code that `Decrypt` raises, for every radix, is that of a round. -/
theorem decrypt_error {key : List Byte} {r rounds : Nat} {w : Digits} {e : ErrCode}
    (h : decrypt key r rounds w = .error e) : e = .encoding := by
  rw [decrypt, joinHalves_eq_error_iff, decRounds_eq_foldlM, foldlM_eq_error_iff] at h
  obtain ⟨k, hk, g, -, he⟩ := h
  exact decRound_error he

end Sys2Proof.Machine

namespace Sys2Proof.Spec

open Sys2Proof.Machine

/-- R264, R294: a completion with an error sets ERR. -/
theorem completeError_eq (s : State) {c : ErrCode} (h : c ≠ .ok) : s.completeError c = completedError s c := by
  simp [State.completeError, completedError, h]

/-- The code that a list of checks gives is the code of a check in it that fails. -/
theorem exists_mem_of_failsWith {l : List (Prop × ErrCode)} {e : ErrCode} (h : failsWith l e) :
    ∃ p, (p, e) ∈ l ∧ p := by
  induction l with
  | nil => exact h.elim
  | cons q l ih =>
    rcases h with ⟨hq, rfl⟩ | ⟨-, h⟩
    · exact ⟨q.1, List.mem_cons_self, hq⟩
    · obtain ⟨p, hmem, hp⟩ := ih h
      exact ⟨p, List.mem_cons_of_mem _ hmem, hp⟩

/-- A list of checks that gives no code has none that fails. -/
theorem not_of_forall_not_failsWith {l : List (Prop × ErrCode)} (h : ∀ e, ¬failsWith l e) : ∀ q ∈ l, ¬q.1 := by
  induction l with
  | nil => simp
  | cons q l ih =>
    have hq : ¬q.1 := fun hq => h q.2 (.inl ⟨hq, rfl⟩)
    exact List.forall_mem_cons.mpr ⟨hq, ih fun e he => h e (.inr ⟨hq, he⟩)⟩

/-- `x` is the result of a command with the checks `l` and then `body` (R292, R293): the code of the first check that
fails, or what `body` gives when none does. -/
structure RunsChecks (l : List (Prop × ErrCode)) (body x : Result) : Prop where
  failed : ∀ e, failsWith l e → x = .error e
  passed : (∀ e, ¬failsWith l e) → x = body

theorem RunsChecks.nil (body : Result) : RunsChecks [] body body := ⟨fun _ h => h.elim, fun _ => rfl⟩

/-- A check in front of the others is a branch that stops with its code. -/
theorem RunsChecks.cons {l : List (Prop × ErrCode)} {body x : Result} {p q : Prop} [Decidable q] {c : ErrCode}
    (hqp : q ↔ p) (h : RunsChecks l body x) : RunsChecks ((p, c) :: l) body (if q then .error c else x) := by
  by_cases hq : q
  · rw [if_pos hq]
    refine ⟨?_, fun hnone => absurd (.inl ⟨hqp.mp hq, rfl⟩) (hnone c)⟩
    rintro e (⟨-, rfl⟩ | ⟨hp, -⟩)
    · rfl
    · exact absurd (hqp.mp hq) hp
  · have hp : ¬p := mt hqp.mpr hq
    rw [if_neg hq]
    refine ⟨?_, fun hnone => h.passed fun e he => hnone e (.inr ⟨hp, he⟩)⟩
    rintro e (⟨hp', -⟩ | ⟨-, he⟩)
    · exact absurd hp' hp
    · exact h.failed e he

/-- The checks of ENC and DEC in the order of R292. -/
theorem checkedFeistel_runsChecks (s : State) (body : Result) :
    RunsChecks (checks.feistelChecks s) body (s.ops.checkedFeistel s.maxLen body) :=
  .cons .rfl <| .cons .rfl <| .cons .rfl <| .cons .rfl <| .cons badDigit_eq_true_iff <| .nil body

/-- The checks of RFN in the order of R292. -/
theorem checkedRound_runsChecks (s : State) (body : Result) :
    RunsChecks (checks .rfn s) body (s.ops.checkedRound s.maxLen body) :=
  .cons .rfl <| .cons .rfl <| .cons .rfl <| .cons badDigit_eq_true_iff <| .nil body

/-- The checks of DADD and DSUB in the order of R292. -/
theorem checkedArith_runsChecks (s : State) (body : Result) :
    RunsChecks (checks.arithChecks s) body (s.ops.checkedArith s.maxLen body) :=
  .cons .rfl <| .cons .rfl <| .cons badDigit_eq_true_iff <| .nil body

/-- What a command computes once it is past its checks (R143, R144, R211, R237, R238, R267). -/
def bodyResult (i : Instr) (s : State) : Result :=
  match i with
  | .nop => nopResult
  | .enc => cipherOf s
  | .dec => plainOf s
  | .rfn => roundFn s.ops.keyBytes s.ops.radix.toNat s.ops.ridx.toNat (s.ops.cells 0 s.ops.len.toNat) s.ops.olen.toNat
  | .dadd =>
    .ok (digitAdd s.ops.radix.toNat (s.ops.cells 0 s.ops.alen.toNat) (s.ops.cells s.ops.alen.toNat s.ops.blen.toNat))
  | .dsub =>
    .ok (digitSub s.ops.radix.toNat (s.ops.cells 0 s.ops.alen.toNat) (s.ops.cells s.ops.alen.toNat s.ops.blen.toNat))

/-- R292: every command runs its own checks, then its body. -/
theorem result_runsChecks (i : Instr) (s : State) :
    RunsChecks (checks i s) (bodyResult i s) (result i s.maxLen s.ops) := by
  cases i with
  | nop => exact .nil _
  | enc => exact checkedFeistel_runsChecks s _
  | dec => exact checkedFeistel_runsChecks s _
  | rfn => exact checkedRound_runsChecks s _
  | dadd => exact checkedArith_runsChecks s _
  | dsub => exact checkedArith_runsChecks s _

/-- Past the checks the only code is ERR_ENCODING, of the commands that pack. -/
theorem bodyResult_error {i : Instr} {s : State} {e : ErrCode} (h : bodyResult i s = .error e) : e = .encoding := by
  cases i with
  | nop => cases h
  | enc => exact encrypt_error h
  | dec => exact decrypt_error h
  | rfn => exact roundFn_error h
  | dadd => cases h
  | dsub => cases h

/-- R292: ENC and DEC that fail no check are ready. -/
theorem feistelReady_of_passed {s : State} (h : ∀ e, ¬failsWith (checks.feistelChecks s) e) : feistelReady s := by
  have hpass := not_of_forall_not_failsWith h
  simp only [checks.feistelChecks, List.forall_mem_cons, not_or, not_lt, not_exists, not_and, not_le] at hpass
  obtain ⟨hkey, hr, hrounds, ⟨hlen, hmax⟩, hdig, -⟩ := hpass
  exact ⟨hkey, hr, Nat.one_le_iff_ne_zero.mpr hrounds, hlen, hmax, hdig⟩

/-- R290, R292: each check of each command is a cause that the table lists for that command and the check's code. -/
theorem hasCause_of_mem_checks (i : Instr) (s : State) : ∀ q ∈ checks i s, q.1 → hasCause i s q.2 := by
  cases i with
  | nop => simp [checks]
  | enc => simp [checks, checks.feistelChecks, hasCause]
  | dec => simp [checks, checks.feistelChecks, hasCause]
  | rfn => simp [checks, hasCause]
  | dadd => simp [checks, checks.arithChecks, hasCause]
  | dsub => simp [checks, checks.arithChecks, hasCause]

/-- R239: a cipher that raises ERR_ENCODING on ready operands has a radix or a round count above `2^31`. -/
theorem large_of_encoding {s : State} (h : feistelReady s)
    (he : cipherOf s = .error .encoding ∨ plainOf s = .error .encoding) :
    2 ^ 31 < s.ops.rounds.toNat ∨ 2 ^ 31 < s.ops.radix.toNat := by
  obtain ⟨hr, -, hd⟩ := digits_of_ready h
  by_contra! hsmall
  obtain ⟨hrounds, hradix⟩ := hsmall
  rcases he with he | he
  · obtain ⟨w, hw⟩ := encrypt_ok s.ops.keyBytes hr hradix hrounds hd
    exact nomatch hw.symm.trans he
  · obtain ⟨v, hv⟩ := decrypt_ok s.ops.keyBytes hr hradix hrounds hd
    exact nomatch hv.symm.trans he

/-- R290, R239: a command past its checks raises ERR_ENCODING only where something does not pack. -/
theorem hasCause_encoding {i : Instr} {s : State} (hpass : ∀ e, ¬failsWith (checks i s) e)
    (h : bodyResult i s = .error .encoding) : hasCause i s .encoding := by
  cases i with
  | nop => cases h
  | enc =>
    exact .inl ⟨.inl rfl, large_of_encoding (feistelReady_of_passed hpass) (.inl h),
      fun _ => encrypt_eq_encoding_iff.mp h, nofun⟩
  | dec =>
    exact .inl ⟨.inr rfl, large_of_encoding (feistelReady_of_passed hpass) (.inr h), nofun,
      fun _ => decrypt_eq_encoding_iff.mp h⟩
  | rfn =>
    obtain ⟨v, hv, hlarge⟩ := roundFn_eq_encoding_iff.mp h
    refine .inr ⟨rfl, ?_⟩
    rcases List.mem_cons.mp hv with rfl | hv
    · exact .inl hlarge
    · obtain ⟨k, hk, rfl⟩ := mem_cells_iff.mp hv
      exact .inr ⟨k, hk, hlarge⟩
  | dadd => cases h
  | dsub => cases h

/-- Settles O15: the result runs the checks of R292 in order, then a body whose only code is ERR_ENCODING. -/
theorem checksRunInOrder : Obligations.ChecksRunInOrder := by
  refine ⟨fun i s e h => ?failed, fun i s t hpass ht => ?passed, fun s r h => ?reserved⟩
  case failed =>
    have hres := (result_runsChecks i s).failed e h
    rw [exec_eq, hres, State.complete_error, completeError_eq s (result_error_ne_ok hres)]
  case passed =>
    rw [exec_eq, (result_runsChecks i s).passed hpass] at ht
    cases ht
    cases hb : bodyResult i s with
    | ok u => exact .inl rfl
    | error c => exact .inr (bodyResult_error hb)
  case reserved => rw [completion, State.command_eq, h, completeError_eq s (by decide)]

/-- Settles O16: a code comes from the first check that fails, which is its cause, or from a body past the checks, which
raises ERR_ENCODING only. -/
theorem codesHaveTheirCause : Obligations.CodesHaveTheirCause := by
  intro i s t ht
  refine ⟨?_, ErrCode.number_lt _⟩
  rw [exec_eq] at ht
  cases ht
  by_cases hfail : ∃ e, failsWith (checks i s) e
  · obtain ⟨e, he⟩ := hfail
    rw [(result_runsChecks i s).failed e he]
    obtain ⟨p, hmem, hp⟩ := exists_mem_of_failsWith he
    exact hasCause_of_mem_checks i s _ hmem hp
  · have hpass := not_exists.mp hfail
    rw [(result_runsChecks i s).passed hpass]
    cases hb : bodyResult i s with
    | ok u => trivial
    | error c =>
      obtain rfl := bodyResult_error hb
      exact hasCause_encoding hpass hb

/-- Settles O17, by the two ways a completion can end. -/
theorem errorRecordsOnlyItsCode : Obligations.ErrorRecordsOnlyItsCode := by
  intro s t ht hne
  rcases completion_cases s with ⟨u, e⟩ | ⟨c, hc, e⟩ <;> cases ht.symm.trans e
  · exact absurd rfl hne
  · exact completeError_eq s hc

/-- Settles O54: irq is a function of IE and DONE, and each clause is what its event leaves in these two. -/
theorem irqIsEnableAndDone : Obligations.IrqIsEnableAndDone := by
  refine fun s => ⟨State.irq_eq s, fun t ht => ?completion, fun v hv => ?acknowledge, fun w hp => ?acceptance, rfl,
    fun v hreset hie => ?masked⟩
  case completion =>
    cases (completion_eq s).symm.trans ht
    simp
  case acknowledge => simp [serve_status, hv]
  case acceptance => simp [serve_cmd_idle hp]
  case masked =>
    rw [serve_ctrl, writeCtrl_ie s hreset, hie]
    exact ⟨rfl, rfl⟩

end Sys2Proof.Spec
end

section
/-! SUPPORT. The state after reset, and the invariant at it (spec/70_reset_and_hazards.md rule R330). -/

namespace Sys2Proof.Spec

open Sys2Proof.Machine

/-- R205 at the RADIX of reset: `10^48` is the largest power of 10 within `2^160`. -/
theorem cph_ten : cph 10 = 48 := by
  obtain ⟨hlargest, -⟩ := cphIsTheLargestPower
  have hwithin : 48 ≤ cph 10 := (hlargest 10 48 (by decide)).mpr (by norm_num)
  have hbeyond : ¬ 49 ≤ cph 10 := fun h => absurd ((hlargest 10 49 (by decide)).mp h) (by norm_num)
  omega

/-- CPH reads 48 while RADIX is 10 (R205). -/
theorem reads_cph_of_radix_ten {s : State} (h : s.ops.radix = 10#32) : reads s 0x030#12 48#32 := by
  have hword : cphWord s.ops.radix = 48#32 := by
    rw [h]
    exact congrArg (BitVec.ofNat 32) cph_ten
  rw [← hword]
  exact reads_low s (a := 0x030) (by decide) rfl

/-- Settles O55: ID and CPH through the map, every register, KEY word and cell by the definition of the reset state, and
the hard reset by the step it is. -/
theorem resetState : Obligations.ResetState := by
  have hid : reads State.reset 0x000#12 0x46465801#32 := reads_low _ (a := 0x000) (by decide) rfl
  have hcph : reads State.reset 0x030#12 48#32 := reads_cph_of_radix_ten rfl
  exact ⟨hid, rfl, rfl, rfl, rfl, rfl, rfl, rfl, rfl, rfl, rfl, rfl, rfl, rfl, rfl, hcph, rfl, Memory.read_nil,
    Memory.read_nil, rfl, rfl, fun _ _ => step_hardReset⟩

/-- Settles O56: the default MAX_LEN is legal, and a reset state with a legal MAX_LEN meets the invariant. -/
theorem resetSatisfiesTheInvariant : Obligations.ResetSatisfiesTheInvariant :=
  have hlegal : legalMaxLen Config.maxLenDefault = true := by decide
  resetWith_inv hlegal []

end Sys2Proof.Spec
end
